-- ==== Sys2Proof/Word.lean ====
section
/-! DEFINITION. The word types of the block: a field element or polynomial is 8 bits (R4, R11), a logarithm entry, a
power and a response's DATA are 16 bits (R13, R48, R52), a command word and a response word are 32 bits (R45, R52). -/

namespace Sys2Proof

/-- A field element, a polynomial operand, a table index or an opcode: 8 bits, unsigned (R4, R11, R28). -/
abbrev Byte := BitVec 8

/-- A `LOG` entry, a power `n`, or the `DATA` field of a response: 16 bits (R13, R48, R52). -/
abbrev Half := BitVec 16

/-- A command word or a response word (R45, R52; `CMD_W` and `RSP_W` of R5). -/
abbrev Word := BitVec 32

end Sys2Proof
end

