-- ==== Sys2Proof/Syntax.lean ====
section
/-! DEFINITION. The eleven commands of the block (R47), one constructor per row of spec/opcode_table.json. An operand has
exactly the width of its field (R45, R48), so no ill-formed command can be written down. -/

namespace Sys2Proof

/-- A command of the block (R47), its operands as R48 assembles them. -/
inductive Instr where
  /-- BUILD `p`: construct and commit the tables of polynomial `p` (R72). -/
  | build (p : Byte)
  /-- SCAN: report the valid polynomials (R75). -/
  | scan
  /-- ADD `a, b` (R86). -/
  | add (a b : Byte)
  /-- SUB `a, b` (R87). -/
  | sub (a b : Byte)
  /-- MUL `a, b` (R88). -/
  | mul (a b : Byte)
  /-- DIV `a, b`: dividend `a`, divisor `b` (R89). -/
  | div (a b : Byte)
  /-- POW `a, n`: base `a`, power `n` (R90). -/
  | pow (a : Byte) (n : Half)
  /-- INV `a` (R91). -/
  | inv (a : Byte)
  /-- RDEXP `e`: read one entry of the exponent table (R105). -/
  | rdexp (e : Byte)
  /-- RDLOG `a`: read one entry of the logarithm table (R106). -/
  | rdlog (a : Byte)
  /-- RDSTS: read `POLY` and `STATUS` (R107). -/
  | rdsts
  deriving DecidableEq, Repr

end Sys2Proof
end

