-- ==== Sys2Proof/WellFormed.lean ====
section
/-! DEFINITION. What makes a written command well formed (R58). A term of `Instr` carries its own well-formedness in the
widths of its operands, so the checks stand where an ill-formed command can be written: on a line of the assembler, a
mnemonic followed by integers. "An operand that does not fit its field (`A`, `B` above 255, `N` above 65535, or negative)
is an error of the assembler, not a command." -/

namespace Sys2Proof

/-- The eleven mnemonics of R47. -/
inductive Mnemonic where
  | build | scan | add | sub | mul | div | pow | inv | rdexp | rdlog | rdsts
  deriving DecidableEq, Repr

/-- The four formats of R46. -/
inductive Format where
  | f0 | f1 | f2 | fn
  deriving DecidableEq, Repr

/-- The format of each command (R47). -/
def Mnemonic.format : Mnemonic → Format
  | .scan | .rdsts => .f0
  | .build | .inv | .rdexp | .rdlog => .f1
  | .add | .sub | .mul | .div => .f2
  | .pow => .fn

/-- A line of the assembler: a mnemonic and its operands as the integers that were written (R58). -/
structure Line where
  mnemonic : Mnemonic
  operands : List Int
  deriving DecidableEq, Repr

/-- Does an integer fit the 8-bit field `A` or `B` (R48, R58)? -/
def fitsByte (v : Int) : Bool := decide (0 ≤ v) && decide (v ≤ 255)

/-- Does an integer fit the 16-bit field `N` (R48, R58)? -/
def fitsPower (v : Int) : Bool := decide (0 ≤ v) && decide (v ≤ 65535)

/-- A line is well formed when it has the operands its format takes (R46) and each fits its field (R58). -/
def Line.wellFormed (l : Line) : Bool :=
  match l.mnemonic.format, l.operands with
  | .f0, [] => true
  | .f1, [a] => fitsByte a
  | .f2, [a, b] => fitsByte a && fitsByte b
  | .fn, [a, n] => fitsByte a && fitsPower n
  | _, _ => false

/-- The line that writes a command (R58: operands in the order `A`, then `B` or `N`). -/
def Instr.line : Instr → Line
  | .build p => ⟨.build, [(p.toNat : Int)]⟩
  | .scan => ⟨.scan, []⟩
  | .add a b => ⟨.add, [(a.toNat : Int), (b.toNat : Int)]⟩
  | .sub a b => ⟨.sub, [(a.toNat : Int), (b.toNat : Int)]⟩
  | .mul a b => ⟨.mul, [(a.toNat : Int), (b.toNat : Int)]⟩
  | .div a b => ⟨.div, [(a.toNat : Int), (b.toNat : Int)]⟩
  | .pow a n => ⟨.pow, [(a.toNat : Int), (n.toNat : Int)]⟩
  | .inv a => ⟨.inv, [(a.toNat : Int)]⟩
  | .rdexp e => ⟨.rdexp, [(e.toNat : Int)]⟩
  | .rdlog a => ⟨.rdlog, [(a.toNat : Int)]⟩
  | .rdsts => ⟨.rdsts, []⟩

end Sys2Proof
end

