-- ==== Sys2Proof/Decode.lean ====
section
/-! DEFINITION. The command word: its fields, the decoder (R45 to R51), the encoder (R58's formulas), and the opcode table
as masks and patterns (R51). The decoder is total on 32-bit words, is a function of the word alone, and rejects by name. -/

namespace Sys2Proof

/-- `OPC`, bits 31:24 (R45). -/
def fieldOpc (w : Word) : Byte := w.extractLsb' 24 8

/-- `A`, bits 23:16 (R45). -/
def fieldA (w : Word) : Byte := w.extractLsb' 16 8

/-- `B`, bits 15:8 (R45). -/
def fieldB (w : Word) : Byte := w.extractLsb' 8 8

/-- `Z`, bits 7:0, reserved in every format but FN (R45). -/
def fieldZ (w : Word) : Byte := w.extractLsb' 0 8

/-- `N`, bits 15:0, the power of format FN; it overlays `B` and `Z` (R45). -/
def fieldN (w : Word) : Half := w.extractLsb' 0 16

/-- Why a word is no command (R49, R50). -/
inductive Illegal where
  /-- `OPC` is none of the eleven values of R47 (R50). -/
  | unassignedOpcode (opc : Byte)
  /-- `OPC` names a command and its reserved bits are not all zero (R49). -/
  | reservedBitsSet (opc : Byte)
  deriving DecidableEq, Repr

/-- Format F0: bits 23:0 are zero (R46, R49). -/
def decodeF0 (i : Instr) (w : Word) : Except Illegal Instr :=
  if fieldA w = 0 ∧ fieldN w = 0 then .ok i else .error (.reservedBitsSet (fieldOpc w))

/-- Format F1: operand `A`, bits 15:0 are zero (R46, R49). -/
def decodeF1 (i : Byte → Instr) (w : Word) : Except Illegal Instr :=
  if fieldN w = 0 then .ok (i (fieldA w)) else .error (.reservedBitsSet (fieldOpc w))

/-- Format F2: operands `A` and `B`, bits 7:0 are zero (R46, R49). -/
def decodeF2 (i : Byte → Byte → Instr) (w : Word) : Except Illegal Instr :=
  if fieldZ w = 0 then .ok (i (fieldA w) (fieldB w)) else .error (.reservedBitsSet (fieldOpc w))

/-- Format FN: operands `A` and `N`, no reserved bits (R46). -/
def decodeFN (i : Byte → Half → Instr) (w : Word) : Except Illegal Instr :=
  .ok (i (fieldA w) (fieldN w))

/-- The decoder (R47, R51): the opcode, compared in all its 8 bits, selects the command and its format. -/
def decode (w : Word) : Except Illegal Instr :=
  match (fieldOpc w).toNat with
  | 0x01 => decodeF1 .build w
  | 0x02 => decodeF0 .scan w
  | 0x10 => decodeF2 .add w
  | 0x11 => decodeF2 .sub w
  | 0x12 => decodeF2 .mul w
  | 0x13 => decodeF2 .div w
  | 0x14 => decodeFN .pow w
  | 0x15 => decodeF1 .inv w
  | 0x20 => decodeF1 .rdexp w
  | 0x21 => decodeF1 .rdlog w
  | 0x22 => decodeF0 .rdsts w
  | _ => .error (.unassignedOpcode (fieldOpc w))

/-- A byte placed in a word from bit `k` up: `v << k` (R58). -/
def byteAt (v : Byte) (k : Nat) : Word := v.setWidth 32 <<< k

/-- The word of format F1: `OPC << 24 | A << 16` (R58). -/
def wordF1 (opc a : Byte) : Word := byteAt opc 24 ||| byteAt a 16

/-- The word of format F2: `OPC << 24 | A << 16 | B << 8` (R58). -/
def wordF2 (opc a b : Byte) : Word := byteAt opc 24 ||| byteAt a 16 ||| byteAt b 8

/-- The word of format FN: `OPC << 24 | A << 16 | N` (R58). -/
def wordFN (opc a : Byte) (n : Half) : Word := byteAt opc 24 ||| byteAt a 16 ||| n.setWidth 32

/-- The word of a command (R46, R47, R58). -/
def encode : Instr → Word
  | .build p => wordF1 0x01 p
  | .scan => byteAt 0x02 24
  | .add a b => wordF2 0x10 a b
  | .sub a b => wordF2 0x11 a b
  | .mul a b => wordF2 0x12 a b
  | .div a b => wordF2 0x13 a b
  | .pow a n => wordFN 0x14 a n
  | .inv a => wordF1 0x15 a
  | .rdexp e => wordF1 0x20 e
  | .rdlog a => wordF1 0x21 a
  | .rdsts => byteAt 0x22 24

/-- A row of spec/opcode_table.json: a word matches it when `CMD & mask = pattern` (R51). -/
structure Row where
  mnemonic : Mnemonic
  mask : Word
  pattern : Word
  deriving DecidableEq, Repr

/-- The eleven rows of spec/opcode_table.json (R47, R51). -/
def opcodeTable : List Row :=
  [ ⟨.build, 0xFF00FFFF, 0x01000000⟩,
    ⟨.scan, 0xFFFFFFFF, 0x02000000⟩,
    ⟨.add, 0xFF0000FF, 0x10000000⟩,
    ⟨.sub, 0xFF0000FF, 0x11000000⟩,
    ⟨.mul, 0xFF0000FF, 0x12000000⟩,
    ⟨.div, 0xFF0000FF, 0x13000000⟩,
    ⟨.pow, 0xFF000000, 0x14000000⟩,
    ⟨.inv, 0xFF00FFFF, 0x15000000⟩,
    ⟨.rdexp, 0xFF00FFFF, 0x20000000⟩,
    ⟨.rdlog, 0xFF00FFFF, 0x21000000⟩,
    ⟨.rdsts, 0xFFFFFFFF, 0x22000000⟩ ]

/-- Does a word match a row (R51)? -/
def Row.covers (r : Row) (w : Word) : Bool := w &&& r.mask == r.pattern

/-- The command a well-formed line names (R58); `none` is the assembler's error. -/
def assembleLine (l : Line) : Option Instr :=
  if l.wellFormed then
    match l.mnemonic, l.operands with
    | .build, [p] => some (.build (BitVec.ofInt 8 p))
    | .scan, [] => some .scan
    | .add, [a, b] => some (.add (BitVec.ofInt 8 a) (BitVec.ofInt 8 b))
    | .sub, [a, b] => some (.sub (BitVec.ofInt 8 a) (BitVec.ofInt 8 b))
    | .mul, [a, b] => some (.mul (BitVec.ofInt 8 a) (BitVec.ofInt 8 b))
    | .div, [a, b] => some (.div (BitVec.ofInt 8 a) (BitVec.ofInt 8 b))
    | .pow, [a, n] => some (.pow (BitVec.ofInt 8 a) (BitVec.ofInt 16 n))
    | .inv, [a] => some (.inv (BitVec.ofInt 8 a))
    | .rdexp, [e] => some (.rdexp (BitVec.ofInt 8 e))
    | .rdlog, [a] => some (.rdlog (BitVec.ofInt 8 a))
    | .rdsts, [] => some .rdsts
    | _, _ => none
  else none

/-- The command word whose bits the opcode table numbers `w`, in `nbits` bits: a command is one 32-bit word (R45), so the
bits above `nbits` are zero. -/
def tableWord (nbits w : Nat) : Word := BitVec.ofNat 32 (w % 2 ^ nbits)

/-- What the decoder reads from a row's word; no command is longer than 32 bits (R45). -/
def decodeTableWord (nbits w : Nat) : Option Instr :=
  if nbits ≤ 32 then
    match decode (tableWord nbits w) with
    | .ok i => some i
    | .error _ => none
  else none

end Sys2Proof
end

