-- ==== Sys2Proof/Config.lean ====
section
/-! DEFINITION. What the spec leaves open and the model therefore leaves free, and the one named value a platform
suggests. `BUS_BYTE_ORDER` (R32) is read by no rule and has no entry here; `STD_POLY` (R5) is a parameter of the platform
and not of the block: every claim quantifies over the polynomial instead of naming it. -/

namespace Sys2Proof

/-- FREE VALUE. The 16 `DATA` bits of an error beat, which R55 leaves unspecified (93_implementation_defined.md U1: "any
value"). It has no body, so nothing can evaluate it; it is applied to the counter `State.draws`, which every error
advances, so that two error beats need not agree. Safe; log entry 2. -/
opaque Config.errorData : Nat → Half

/-- The low byte of the source's "standard choice" of polynomial, 0x11D (R6). The block has no default (R138); this name
is used by the tests and by claims about that one polynomial. -/
def Config.standardPolynomial : Byte := 0x1D

end Sys2Proof
end

