-- ==== Sys2Proof/Machine/State.lean ====
section
/-! DEFINITION. The state of the block as plain data (R10), the response beats it emits (R52, R53), what the host can do
to it at its ports (R56, R139), the reasons a step can stop, and the state after reset (R27, R135). -/

namespace Sys2Proof.Machine

/-- The exponent table: 255 field elements, index 0..254 (R12). -/
abbrev ExpTable := Vector Byte 255

/-- The logarithm table: 256 entries of 16 bits, index 0..255 (R13). -/
abbrev LogTable := Vector Half 256

/-- The two table spaces of the block, `EXP` and `LOG` (R30). -/
structure Tables where
  exp : ExpTable
  log : LogTable
  deriving DecidableEq, Repr

/-- The six error statuses (R53, R115, R116). -/
inductive Err where
  /-- `E_ILLEGAL`: the word is no command (R50). -/
  | illegal
  /-- `E_NOTABLE`: a table command while `TV` = 0 (R85). -/
  | noTable
  /-- `E_DIV0`: a nonzero element divided by zero, or the inverse of zero (R89, R91). -/
  | div0
  /-- `E_BADPOLY`: BUILD of a polynomial that is not valid (R73). -/
  | badPoly
  /-- `E_BUILT`: BUILD while `TV` = 1 (R74). -/
  | built
  /-- `E_INDEX`: RDEXP with index 255 (R105). -/
  | index
  deriving DecidableEq, Repr

/-- The status of a response beat; no other value of `ST` ever occurs (R53). -/
inductive Status where
  /-- `OK`: final, the command succeeded. -/
  | ok
  /-- `ITEM`: not final, one element of SCAN's list. -/
  | item
  /-- An error: final, no result. -/
  | err (e : Err)
  deriving DecidableEq, Repr

/-- A response beat: its status and its 16 `DATA` bits (R52); `Beat.word` is the 32-bit word at the port. -/
structure Beat where
  status : Status
  data : Half
  deriving DecidableEq, Repr

/-- What the host does at the ports (R56, R139): it presents a command word, it resets the block between commands
(R135), or it resets it while a command is in flight (R137). -/
inductive Input where
  /-- A command word is transferred on the command port. -/
  | command (w : Word)
  /-- `rst` is asserted while no command is in flight. -/
  | reset
  /-- Command `w` is transferred, and `rst` is asserted when `taken` of its beats have been transferred. -/
  | resetDuring (w : Word) (taken : Nat)
  deriving DecidableEq, Repr

/-- The state of the machine. The first four fields are all the architectural state the spec gives the block (R10):
`EXP` and `LOG`, `POLY`, `STATUS.TV`, `STATUS.SE`. The last three are the MODEL'S OWN: the two ends of the ports (R56) and
the counter of free values. -/
structure State where
  /-- `EXP` and `LOG` (R12, R13). -/
  tables : Tables
  /-- `POLY`, the polynomial the tables were built from (R16). -/
  poly : Byte
  /-- `STATUS.TV`, tables valid (R18). -/
  tv : Bool
  /-- `STATUS.SE`, sticky error (R19). -/
  se : Bool
  /-- The model's own: what the host has yet to do at the ports, in order (R37); log entry 3. -/
  inputs : List Input
  /-- The model's own: every response beat transferred so far, oldest first (R146); log entry 3. -/
  responses : List Beat
  /-- The model's own: how many free values have been drawn (R55); log entry 2. -/
  draws : Nat
  deriving DecidableEq, Repr

/-- Why a step can fault. -/
inductive Fault where
  /-- An index outside `EXP`, which has no entry there (R12, R35). Raised by MUL, DIV and INV, and only in a state with
  `TV` = 1 whose `LOG` holds a pattern that no committed table holds (R13); no run from reset reaches one. Safe; log
  entry 4. -/
  | noExpEntry
  deriving DecidableEq, Repr

/-- Why a step can be refused. -/
inductive Refusal where
  /-- The instruction has no meaning yet. Raised by `exec`'s refused arms only, of which there are none. Safe. -/
  | notModelled (mnemonic : String)
  deriving DecidableEq, Repr

/-- DESIGN CHOICE (log entry 1, unsafe): `EXP` after reset, which R27 leaves unspecified and unobservable. Entry 0 is
0x01, as R12 and R35 say it always is; the other entries are zero. -/
def resetExp : ExpTable := (Vector.replicate 255 0x00#8).set 0 0x01#8

/-- DESIGN CHOICE (log entry 1, unsafe): `LOG` after reset, which R27 leaves unspecified and unobservable: zeros. -/
def resetLog : LogTable := Vector.replicate 256 0x0000#16

/-- The state after reset (R27, R135): `TV` = 0, `SE` = 0, `POLY` = 0x00, the tables unspecified, no command in flight. The
model's own fields: nothing presented yet, no beat transferred yet, no free value drawn yet. -/
def State.reset : State :=
  { tables := { exp := resetExp, log := resetLog }
    poly := 0x00
    tv := false
    se := false
    inputs := []
    responses := []
    draws := 0 }

end Sys2Proof.Machine
end

