-- ==== Sys2Proof/Machine/Flags.lean ====
section
/-! DEFINITION. The two flags `TV` and `SE` and the `STATUS` register they make up (R17 to R19). The block has no other
flag and no condition code (R10). -/

namespace Sys2Proof.Machine

/-- `STATUS` as read (R17): `TV` in bit 0, `SE` in bit 1, bits 7:2 hardwired to zero. -/
def statusByte (s : State) : Byte := 0#6 ++ BitVec.ofBool s.se ++ BitVec.ofBool s.tv

/-- `STATUS.SE <- 1`, by an error (R19, R118). -/
def setSticky (s : State) : State := { s with se := true }

/-- `STATUS.TV <- 1`, by a successful BUILD and nothing else (R18). -/
def setTablesValid (s : State) : State := { s with tv := true }

end Sys2Proof.Machine
end

