-- ==== Sys2Proof/Machine/Operands.lean ====
section
/-! DEFINITION. How the commands read their operands and the tables: widening to `DATA` (R52), the element indices of
`EXP` and `LOG` (R30, R35), a `LOG` entry as a signed number (R13), and the exponent arithmetic with its reductions (R92). -/

namespace Sys2Proof.Machine

/-- `zext_16` of a byte: an element, polynomial or count in `DATA[7:0]` with `DATA[15:8]` = 0 (R52). -/
def zext16 (v : Byte) : Half := v.setWidth 16

/-- The sentinel of the logarithm table, -1 stored in 16 bits (R13). -/
def sentinel : Half := 0xFFFF

/-- `LOG[a]`, the 16 bits stored; every byte is an index of `LOG` (R35, R106). -/
def logEntry (t : Tables) (a : Byte) : Half := t.log[a.toNat]'a.isLt

/-- `LOG[a]` read as a signed number: -1, or an exponent (R13). -/
def logValue (t : Tables) (a : Byte) : Int := (logEntry t a).toInt

/-- What a field operation gives: a byte, the failure `DivByZero` (R89), or no entry of `EXP` at the index it computed,
which happens in no state whose tables a BUILD committed (R92). -/
inductive EngineResult where
  | value (v : Byte)
  | divByZero
  | noEntry
  deriving DecidableEq, Repr

/-- `EXP[i]` at an exponent computed as an integer; index 255 and above do not exist (R12). -/
def expAt (t : Tables) (i : Int) : EngineResult :=
  if h : 0 ≤ i ∧ i < 255 then .value (t.exp[i.toNat]'(by omega)) else .noEntry

/-- The sum of two logarithms, less 255 once if it is 255 or more (R88, R92). -/
def reduceSum (s : Int) : Int := if 255 ≤ s then s - 255 else s

/-- The difference of two logarithms, plus 255 once if it is negative (R89, R92). -/
def reduceDiff (d : Int) : Int := if d < 0 then d + 255 else d

/-- The remainder modulo 255, never negative, of an exact product of a logarithm and a power (R90, R92; `mod` as
00_scope.md section 5 defines it). -/
def reduceProduct (m : Int) : Int := m % 255

end Sys2Proof.Machine
end

