-- ==== Sys2Proof/Machine/Response.lean ====
section
/-! DEFINITION. The response word: status codes (R53) and the layout of a beat (R52). -/

namespace Sys2Proof.Machine

/-- The code of an error status (R53, R117). -/
def Err.code : Err → Byte
  | .illegal => 0x80
  | .noTable => 0x81
  | .div0 => 0x82
  | .badPoly => 0x83
  | .built => 0x84
  | .index => 0x85

/-- The `ST` field of a beat (R53). -/
def Status.code : Status → Byte
  | .ok => 0x00
  | .item => 0x01
  | .err e => e.code

/-- Is the beat the last of its command? All but `ITEM` are (R53). -/
def Status.isFinal : Status → Bool
  | .item => false
  | .ok => true
  | .err _ => true

/-- Does the status report an error (R53)? -/
def Status.isError : Status → Bool
  | .err _ => true
  | .ok => false
  | .item => false

/-- The response word `RSP` (R52): `ST` in 31:24, zero in 23:16, `DATA` in 15:0. -/
def Beat.word (b : Beat) : Word := (b.status.code.setWidth 32 <<< 24) ||| b.data.setWidth 32

/-- The response words transferred so far, in order (R146). -/
def State.responseWords (s : State) : List Word := s.responses.map Beat.word

end Sys2Proof.Machine
end

