-- ==== Sys2Proof/Machine/Ops.lean ====
section
/-! DEFINITION. The named operations every command is made of: `respond`, `raise` (the block's whole error mechanism,
R118, R123: there is no trap entry and no return, R124), the commit of built tables (R72), the test of `TV` (R85), and the
reset of the block (R135). -/

namespace Sys2Proof.Machine

/-- Response beats are transferred, in order (R54). -/
def emit (bs : List Beat) (s : State) : State := { s with responses := s.responses ++ bs }

/-- `respond OK(v)`: the final beat, with its result (00_scope.md section 5). -/
def respond (v : Half) (s : State) : State := emit [⟨.ok, v⟩] s

/-- A free value has been drawn, so the next one is another (R55). -/
def advanceDraws (s : State) : State := { s with draws := s.draws + 1 }

/-- `raise <E_x>` (R118): one final beat with the error's code and unspecified `DATA`, `STATUS.SE <- 1`, and nothing
else. The `DATA` bits are the free value of this draw (R55). -/
def raise (e : Err) (s : State) : State :=
  setSticky (advanceDraws (emit [⟨.err e, Config.errorData s.draws⟩] s))

/-- The commit of a successful BUILD (R72): all of `EXP`, all of `LOG`, `POLY`, `STATUS.TV`. -/
def commitTables (p : Byte) (T : ExpTable) (L : LogTable) (s : State) : State :=
  setTablesValid { s with tables := { exp := T, log := L }, poly := p }

/-- The test that MUL, DIV, POW, INV, RDEXP and RDLOG make first: `E_NOTABLE` while `TV` = 0, whatever the operands
(R85, R119). -/
def needTables (s : State) (run : Host.Outcome State Fault Refusal) : Host.Outcome State Fault Refusal :=
  if s.tv then run else .next (raise .noTable s)

/-- How a field command ends (R88 to R91): the byte in an `OK` beat, or `E_DIV0` and no value in any form. -/
def answer (r : EngineResult) (s : State) : Host.Outcome State Fault Refusal :=
  match r with
  | .value v => .next (respond (zext16 v) s)
  | .divByZero => .next (raise .div0 s)
  | .noEntry => .fault .noExpEntry

/-- Reset of the block (R27, R135, R136): every architectural field takes its reset value. What the host has yet to do,
the beats already transferred and the draws already made lie outside the block and stay. -/
def resetBlock (s : State) : State :=
  { State.reset with inputs := s.inputs, responses := s.responses, draws := s.draws }

end Sys2Proof.Machine
end

