-- ==== Sys2Proof/Machine/FieldEngine.lean ====
section
/-! DEFINITION. The Field Engine: the pure functions of R86 to R91, the derived multiplication table (R96), and the
commands ADD, SUB, MUL, DIV, POW, INV. Each test is in the source's order. -/

namespace Sys2Proof.Machine

/-- `gf_add(a, b)` (R86). -/
def gfAdd (a b : Byte) : Byte := a ^^^ b

/-- `gf_sub(a, b)` (R87): identical to `gf_add`. -/
def gfSub (a b : Byte) : Byte := a ^^^ b

/-- `gf_mul(a, b)` (R88): zero if either operand is, else `EXP` at the reduced sum of the logarithms. -/
def gfMul (t : Tables) (a b : Byte) : EngineResult :=
  if a = 0 ∨ b = 0 then .value 0
  else expAt t (reduceSum (logValue t a + logValue t b))

/-- `gf_div(a, b)` (R89): the dividend is tested first, so `gf_div(0, 0)` is zero. -/
def gfDiv (t : Tables) (a b : Byte) : EngineResult :=
  if a = 0 then .value 0
  else if b = 0 then .divByZero
  else expAt t (reduceDiff (logValue t a - logValue t b))

/-- `gf_inv(a)` (R91). -/
def gfInv (t : Tables) (a : Byte) : EngineResult := gfDiv t 1 a

/-- `gf_pow(a, n)` (R90): the power is tested first, so `gf_pow(0, 0)` is one; the product is exact. -/
def gfPow (t : Tables) (a : Byte) (n : Half) : EngineResult :=
  if n = 0 then .value 1
  else if a = 0 then .value 0
  else expAt t (reduceProduct (logValue t a * (n.toNat : Int)))

/-- `MULTAB[i][j]` (R96): a derived function that the block neither stores nor emits (R25). -/
def multiplicationTable (t : Tables) (i j : Byte) : EngineResult := gfMul t i j

/-- ADD `a, b` (R86): no test of `TV`, no error. -/
def execAdd (a b : Byte) (s : State) : Host.Outcome State Fault Refusal :=
  .next (respond (zext16 (gfAdd a b)) s)

/-- SUB `a, b` (R87). -/
def execSub (a b : Byte) (s : State) : Host.Outcome State Fault Refusal :=
  .next (respond (zext16 (gfSub a b)) s)

/-- MUL `a, b` (R88). -/
def execMul (a b : Byte) (s : State) : Host.Outcome State Fault Refusal :=
  needTables s (answer (gfMul s.tables a b) s)

/-- DIV `a, b` (R89). -/
def execDiv (a b : Byte) (s : State) : Host.Outcome State Fault Refusal :=
  needTables s (answer (gfDiv s.tables a b) s)

/-- POW `a, n` (R90). -/
def execPow (a : Byte) (n : Half) (s : State) : Host.Outcome State Fault Refusal :=
  needTables s (answer (gfPow s.tables a n) s)

/-- INV `a` (R91). -/
def execInv (a : Byte) (s : State) : Host.Outcome State Fault Refusal :=
  needTables s (answer (gfInv s.tables a) s)

end Sys2Proof.Machine
end

