-- ==== Sys2Proof/Machine/TableAccess.lean ====
section
/-! DEFINITION. Table and status read-out: RDEXP (R105), RDLOG (R106), RDSTS (R107). They read and change nothing (R108). -/

namespace Sys2Proof.Machine

/-- RDEXP `e` (R105): index 255 is `E_INDEX`, not reduced to 0. -/
def execRdexp (e : Byte) (s : State) : Host.Outcome State Fault Refusal :=
  needTables s
    (if h : e.toNat < 255 then .next (respond (zext16 s.tables.exp[e.toNat]) s) else .next (raise .index s))

/-- RDLOG `a` (R106): the 16 bits stored, 0xFFFF for the sentinel. -/
def execRdlog (a : Byte) (s : State) : Host.Outcome State Fault Refusal :=
  needTables s (.next (respond (logEntry s.tables a) s))

/-- RDSTS (R107): `DATA[15:8]` = `POLY`, `DATA[7:0]` = `STATUS`; it works in every state and does not clear `SE`. -/
def execRdsts (s : State) : Host.Outcome State Fault Refusal :=
  .next (respond (s.poly ++ statusByte s) s)

end Sys2Proof.Machine
end

