-- ==== Sys2Proof/Machine/TableGenerator.lean ====
section
/-! DEFINITION. The Table Generator: the pure functions of R65 to R71 and the commands BUILD (R72 to R74) and SCAN (R75,
R76). Both commands work in scratch of their own, which is no state (R23): they evaluate pure functions. -/

namespace Sys2Proof.Machine

/-- `double(v, p)` (R65): shift left within the byte; if bit 7 was shifted out, XOR with the polynomial. -/
def double (v p : Byte) : Byte := if v.msb then (v <<< 1) ^^^ p else v <<< 1

/-- The first `n` elements of the sequence `v`, `double(v, p)`, `double(double(v, p), p)`, ... (R66). -/
def doublings (p : Byte) : Nat → Byte → List Byte
  | 0, _ => []
  | n + 1, v => v :: doublings p n (double v p)

/-- The sequence has as many elements as were asked for. -/
theorem doublings_length (p : Byte) : ∀ (n : Nat) (v : Byte), (doublings p n v).length = n
  | 0, _ => rfl
  | n + 1, v => by simp [doublings, doublings_length p n]

/-- `build_exponent_table(p)` (R66): 0x01 and its 254 successive doublings. -/
def buildExponentTable (p : Byte) : ExpTable :=
  ⟨(doublings p 255 1#8).toArray, by simp [doublings_length]⟩

/-- The scratch logarithm table `SLOG`, 256 slots of 16 bits (R23), held as one number whose digits in base 65536 are the
slots, so that the kernel reads and writes a slot at once. `slot` and `setSlot` are its only reader and writer. -/
abbrev ScratchLog := Nat

/-- `L[i]`: digit `i`. -/
def slot (L : ScratchLog) (i : Nat) : Half := BitVec.ofNat 16 (L / 65536 ^ i)

/-- `L[i] = v`: the bits of digit `i` in which it differs from `v` are flipped. -/
def setSlot (L : ScratchLog) (i : Nat) (v : Half) : ScratchLog :=
  L ^^^ ((slot L i ^^^ v).toNat * 65536 ^ i)

/-- Every slot starts at the sentinel (R67): 256 digits 0xFFFF. -/
def emptyScratch : ScratchLog := 65536 ^ 256 - 1

/-- The loop of `build_logarithm_table` (R67) over the entries from exponent `e` on, ascending: `none` is the failure
`DuplicateLog`, a write to a slot that is already set. -/
def fillLog : List Byte → Nat → ScratchLog → Option ScratchLog
  | [], _, L => some L
  | v :: rest, e, L =>
    if slot L v.toNat = sentinel then fillLog rest (e + 1) (setSlot L v.toNat (BitVec.ofNat 16 e)) else none

/-- The 256 slots as the table that is committed (R72). -/
def scratchTable (L : ScratchLog) : LogTable := ⟨((List.range 256).map (slot L)).toArray, by simp⟩

/-- `build_logarithm_table(T)` (R67); `none` is `Fail(DuplicateLog)`. -/
def buildLogarithmTable (T : ExpTable) : Option LogTable :=
  (fillLog T.toList 0 emptyScratch).map scratchTable

/-- `valid(p)` (R68): the logarithm table of `p` can be built. -/
def valid (p : Byte) : Bool := (buildLogarithmTable (buildExponentTable p)).isSome

/-- The mirrored exponent table that R71 allows an implementation, up to the largest sum of two exponents, 508. The block
does not have it (R24). -/
def mirroredTable (T : ExpTable) : List Byte := T.toList ++ T.toList.take 254

/-- The 256 candidate polynomials, ascending (R75). -/
def candidates : List Byte := (List.range 256).map (BitVec.ofNat 8)

/-- The candidates that are valid, ascending (R75). -/
def validPolynomials : List Byte := candidates.filter valid

/-- SCAN's response (R75): an `ITEM` beat for each valid polynomial, then `OK` with their count. -/
def scanBeats (ps : List Byte) : List Beat :=
  ps.map (fun p => ⟨.item, zext16 p⟩) ++ [⟨.ok, BitVec.ofNat 16 ps.length⟩]

/-- BUILD `p` (R72 to R74): `E_BUILT` while `TV` = 1, whatever `p` is; else `E_BADPOLY` if the logarithm table meets a
duplicate; else the commit and `OK(0x0000)`. -/
def execBuild (p : Byte) (s : State) : Host.Outcome State Fault Refusal :=
  if s.tv then .next (raise .built s)
  else
    match buildLogarithmTable (buildExponentTable p) with
    | none => .next (raise .badPoly s)
    | some L => .next (respond 0x0000 (commitTables p (buildExponentTable p) L s))

/-- SCAN (R75, R76): it cannot fail, needs no tables and changes no state. -/
def execScan (s : State) : Host.Outcome State Fault Refusal :=
  .next (emit (scanBeats validPolynomials) s)

end Sys2Proof.Machine
end

