-- ==== Sys2Proof/Machine/Dispatch.lean ====
section
/-! DEFINITION. One arm per command (R47). -/

namespace Sys2Proof.Machine

/-- The meaning of a command (R47, column Semantics). -/
def exec (i : Instr) (s : State) : Host.Outcome State Fault Refusal :=
  match i with
  | .build p => Sys2Proof.Machine.execBuild p s
  | .scan => Sys2Proof.Machine.execScan s
  | .add a b => Sys2Proof.Machine.execAdd a b s
  | .sub a b => Sys2Proof.Machine.execSub a b s
  | .mul a b => Sys2Proof.Machine.execMul a b s
  | .div a b => Sys2Proof.Machine.execDiv a b s
  | .pow a n => Sys2Proof.Machine.execPow a n s
  | .inv a => Sys2Proof.Machine.execInv a s
  | .rdexp e => Sys2Proof.Machine.execRdexp e s
  | .rdlog a => Sys2Proof.Machine.execRdlog a s
  | .rdsts => Sys2Proof.Machine.execRdsts s

end Sys2Proof.Machine
end

