-- ==== Sys2Proof/Machine/Ports.lean ====
section
/-! DEFINITION. The ports (R56): what the block does with the next thing the host does. A command word is executed to
completion before the next is taken (R37, R57). -/

namespace Sys2Proof.Machine

/-- One command word (R50, R51): a legal word runs its command, every other word raises `E_ILLEGAL` in every state. -/
def runWord (w : Word) (s : State) : Host.Outcome State Fault Refusal :=
  match decode w with
  | .ok i => exec i s
  | .error _ => .next (raise .illegal s)

/-- A reset while `w` is in flight (R137): the first `taken` of its beats have been transferred, the others never are, and
the block is in its reset state whatever the command had done so far. -/
def abandonWord (w : Word) (taken : Nat) (s : State) : Host.Outcome State Fault Refusal :=
  match runWord w { s with responses := [] } with
  | .next t => .next (resetBlock { t with responses := s.responses ++ t.responses.take taken })
  | .fault f => .fault f
  | .refused r => .refused r

/-- What the block does with the host's next action; with none the block is idle and nothing changes (R129). -/
def takeInput (s : State) : Host.Outcome State Fault Refusal :=
  match s.inputs with
  | [] => .next s
  | .command w :: rest => runWord w { s with inputs := rest }
  | .reset :: rest => .next (resetBlock { s with inputs := rest })
  | .resetDuring w taken :: rest => abandonWord w taken { s with inputs := rest }

/-- The host presents `w` next, before anything else it has yet to do (R139). -/
def present (w : Word) (s : State) : State := { s with inputs := .command w :: s.inputs }

end Sys2Proof.Machine
end

