-- ==== Sys2Proof/Machine/Step.lean ====
section
/-! DEFINITION. One step of the machine: one command, executed to completion, or one reset (R37, R135). -/

namespace Sys2Proof.Machine

/-- The step (00_scope.md section 4: "a total function `step : State -> Word32 -> State x List Word32`"; the word comes from
`inputs` and the beats go to `responses`). -/
def step (s : State) : Host.Outcome State Fault Refusal := takeInput s

/-- The command word that the opcode table numbers `w`, presented as the next thing the host does. -/
def State.withFetchWord (s : State) (nbits w : Nat) : State := present (tableWord nbits w) s

end Sys2Proof.Machine
end

