-- ==== Sys2Proof/Safety.lean ====
section
/-! DEFINITION. The terms claims are stated in: the invariant of the machine (R15, R16), what it is for a command to
answer and to raise (R54, R118), which error each command raises when (R117, R119), and elements of the field read as
polynomials over GF(2) (R2, R11). -/

namespace Sys2Proof.Machine

/-- The table invariant (R15): while `TV` = 1, `POLY` is valid and `EXP` and `LOG` are the tables built from it. -/
def TablesMatchPoly (s : State) : Prop :=
  s.tv = true →
    valid s.poly = true ∧ s.tables.exp = buildExponentTable s.poly ∧
      buildLogarithmTable s.tables.exp = some s.tables.log

/-- `POLY` reads 0x00 while `TV` = 0 (R16). -/
def PolyZeroBeforeBuild (s : State) : Prop := s.tv = false → s.poly = 0

/-- The invariant of the machine. -/
def Inv (s : State) : Prop := TablesMatchPoly s ∧ PolyZeroBeforeBuild s

/-- A state in which table commands run: the invariant holds and the tables are valid. -/
def Ready (s : State) : Prop := Inv s ∧ s.tv = true

/-- Command `i` completes in state `s` with the one beat `OK(v)`, and NOTHING else of the state changes. -/
def Answers (i : Instr) (s : State) (v : Half) : Prop :=
  exec i s = .next { s with responses := s.responses ++ [⟨.ok, v⟩] }

/-- Command `i` raises `e` in state `s` (R118): one beat with that status and some 16 `DATA` bits, `SE` becomes 1, and
nothing else of the state changes but the model's own count of draws. -/
def Raises (i : Instr) (s : State) (e : Err) : Prop :=
  ∃ d : Half, exec i s =
    .next { s with se := true, responses := s.responses ++ [⟨.err e, d⟩], draws := s.draws + 1 }

/-- The error a command raises, if any, as R117 lists the conditions and R119 orders them. -/
def errorOf (i : Instr) (s : State) : Option Err :=
  match i with
  | .build p => if s.tv = true then some .built else if valid p = true then none else some .badPoly
  | .scan => none
  | .add _ _ => none
  | .sub _ _ => none
  | .mul _ _ => if s.tv = true then none else some .noTable
  | .div a b => if s.tv = true then (if a ≠ 0 ∧ b = 0 then some .div0 else none) else some .noTable
  | .pow _ _ => if s.tv = true then none else some .noTable
  | .inv a => if s.tv = true then (if a = 0 then some .div0 else none) else some .noTable
  | .rdexp e => if s.tv = true then (if e = 255 then some .index else none) else some .noTable
  | .rdlog _ => if s.tv = true then none else some .noTable
  | .rdsts => none

/-- `EXP[e]` for an exponent 0..254. -/
def expEntry (t : Tables) (e : Fin 255) : Byte := t.exp[e.val]

/-- The exponent a number stands for, reduced modulo 255 (R92). -/
def exponent (k : Nat) : Fin 255 := ⟨k % 255, Nat.mod_lt k (by decide)⟩

/-- The number of an exponent in the 16 bits of a `LOG` entry (R13: `zext_16(e)`). -/
def exponentBits (e : Fin 255) : Half := BitVec.ofNat 16 e.val

/-- The commands whose response is a function of their operands and the tables alone (R39, R85). -/
def readsOnlyTables (i : Instr) : Bool :=
  match i with
  | .build _ => false
  | .scan => false
  | .add _ _ => true
  | .sub _ _ => true
  | .mul _ _ => true
  | .div _ _ => true
  | .pow _ _ => true
  | .inv _ => true
  | .rdexp _ => true
  | .rdlog _ => true
  | .rdsts => false

/-- Is the command a BUILD, the one command that writes the tables (R30)? -/
def isBuild (i : Instr) : Bool :=
  match i with
  | .build _ => true
  | .scan => false
  | .add _ _ => false
  | .sub _ _ => false
  | .mul _ _ => false
  | .div _ _ => false
  | .pow _ _ => false
  | .inv _ => false
  | .rdexp _ => false
  | .rdlog _ => false
  | .rdsts => false

/-- The operands of a command are the fields of its word that R48 names. -/
def operandsAreFieldsOf (i : Instr) (w : Word) : Prop :=
  match i with
  | .build p => p.toNat = w.toNat / 2 ^ 16 % 2 ^ 8
  | .scan => True
  | .add a b => a.toNat = w.toNat / 2 ^ 16 % 2 ^ 8 ∧ b.toNat = w.toNat / 2 ^ 8 % 2 ^ 8
  | .sub a b => a.toNat = w.toNat / 2 ^ 16 % 2 ^ 8 ∧ b.toNat = w.toNat / 2 ^ 8 % 2 ^ 8
  | .mul a b => a.toNat = w.toNat / 2 ^ 16 % 2 ^ 8 ∧ b.toNat = w.toNat / 2 ^ 8 % 2 ^ 8
  | .div a b => a.toNat = w.toNat / 2 ^ 16 % 2 ^ 8 ∧ b.toNat = w.toNat / 2 ^ 8 % 2 ^ 8
  | .pow a n => a.toNat = w.toNat / 2 ^ 16 % 2 ^ 8 ∧ n.toNat = w.toNat % 2 ^ 16
  | .inv a => a.toNat = w.toNat / 2 ^ 16 % 2 ^ 8
  | .rdexp e => e.toNat = w.toNat / 2 ^ 16 % 2 ^ 8
  | .rdlog a => a.toNat = w.toNat / 2 ^ 16 % 2 ^ 8
  | .rdsts => True

/-- A byte as a polynomial over GF(2): bit `i` is the coefficient of `x^i` (R11). -/
noncomputable def toPoly (v : Byte) : Polynomial (ZMod 2) :=
  ∑ i ∈ Finset.range 8, if v.getLsbD i then Polynomial.X ^ i else 0

/-- The reduction polynomial of `p`: `x^8` plus the polynomial of its low byte (R6, R97). -/
noncomputable def reductionPoly (p : Byte) : Polynomial (ZMod 2) := Polynomial.X ^ 8 + toPoly p

/-- The sixteen valid polynomials that R77 lists. -/
def listedPolynomials : List Byte :=
  [0x1D, 0x2B, 0x2D, 0x4D, 0x5F, 0x63, 0x65, 0x69, 0x71, 0x87, 0x8D, 0xA9, 0xC3, 0xCF, 0xE7, 0xF5]

end Sys2Proof.Machine
end

