-- ==== Sys2Proof/Certificates/Slice0/Obligations.lean ====
section
/-! DEFINITION. The statements for the provers, one `def Obligations.<Name> : Prop` each, in the order of OBLIGATIONS.json.
`Answers`, `Raises`, `Inv`, `Ready` and the other terms they use are in Sys2Proof/Safety.lean. -/

open Sys2Proof Sys2Proof.Machine

/-! ### Encoding -/

/-- The decoder reads back every command the encoder writes, with every operand at every value (R45 to R48, R51, R58). -/
def Obligations.DecodeOfEncodeIsTheCommand : Prop :=
  ∀ i : Instr, decode (encode i) = .ok i

/-- A legal word is the word of the command it decodes to: no word has two meanings (R50, R51). -/
def Obligations.EncodeOfDecodeIsTheWord : Prop :=
  ∀ (w : Word) (i : Instr), decode w = .ok i → encode i = w

/-- R49, R50: a word is legal exactly when it matches a row of the opcode table; an unassigned opcode, the all-zero word
and the all-ones word match none; every illegal word raises `E_ILLEGAL`, in every state, and does nothing else. -/
def Obligations.IllegalWordsRaiseIllegal : Prop :=
  (∀ w : Word, (∃ i, decode w = .ok i) ↔ ∃ r ∈ opcodeTable, w &&& r.mask = r.pattern) ∧
  (∀ w : Word,
    fieldOpc w ∉ [0x01, 0x02, 0x10, 0x11, 0x12, 0x13, 0x14, 0x15, 0x20, 0x21, 0x22] →
      ∀ r ∈ opcodeTable, w &&& r.mask ≠ r.pattern) ∧
  (∀ r ∈ opcodeTable, 0x00000000 &&& r.mask ≠ r.pattern ∧ 0xFFFFFFFF &&& r.mask ≠ r.pattern) ∧
  (∀ (s : State) (w : Word) (rest : List Input),
    s.inputs = .command w :: rest → (∀ r ∈ opcodeTable, w &&& r.mask ≠ r.pattern) →
      ∃ d : Half,
        step s = .next { s with
          inputs := rest
          se := true
          responses := s.responses ++ [⟨.err .illegal, d⟩]
          draws := s.draws + 1 } ∧
        Beat.word ⟨.err .illegal, d⟩ = 0x80000000 ||| d.setWidth 32)

/-- R51: every mask covers the opcode and the opcodes differ pairwise, so a word matches at most one row; the decoder finds
that row, extracts its operands, and is undefined on no word. -/
def Obligations.DecoderFindsTheOneMatchingRow : Prop :=
  (∀ r ∈ opcodeTable, r.mask &&& 0xFF000000 = 0xFF000000) ∧
  (∀ r ∈ opcodeTable, ∀ q ∈ opcodeTable, fieldOpc r.pattern = fieldOpc q.pattern → r = q) ∧
  (∀ w : Word, ∀ r ∈ opcodeTable, ∀ q ∈ opcodeTable,
    w &&& r.mask = r.pattern → w &&& q.mask = q.pattern → r = q) ∧
  (∀ (w : Word) (i : Instr), decode w = .ok i ↔
    ∃ r ∈ opcodeTable, w &&& r.mask = r.pattern ∧ r.mnemonic = i.line.mnemonic ∧ encode i = w)

/-- R48: every operand is the unsigned number in its field of the word, with no scaling, shifting or extension. -/
def Obligations.OperandsAreTheFieldsOfTheWord : Prop :=
  ∀ (w : Word) (i : Instr), decode w = .ok i → operandsAreFieldsOf i w

/-- R58's examples: each written word decodes to the command it is the word of. -/
def Obligations.SpecExampleWordsDecode : Prop :=
  decode 0x011D0000 = .ok (.build 0x1D) ∧
  decode 0x02000000 = .ok .scan ∧
  decode 0x1053CA00 = .ok (.add 0x53 0xCA) ∧
  decode 0x11000700 = .ok (.sub 0x00 0x07) ∧
  decode 0x12030700 = .ok (.mul 0x03 0x07) ∧
  decode 0x13090300 = .ok (.div 0x09 0x03) ∧
  decode 0x14020008 = .ok (.pow 0x02 8) ∧
  decode 0x14FFFFFF = .ok (.pow 0xFF 65535) ∧
  decode 0x15530000 = .ok (.inv 0x53) ∧
  decode 0x20080000 = .ok (.rdexp 8) ∧
  decode 0x21020000 = .ok (.rdlog 0x02) ∧
  decode 0x22000000 = .ok .rdsts

/-- The assembler's lines and the commands correspond one to one: every command is written by a well-formed line, only that
line assembles to it, and a line with an operand that does not fit its field assembles to none (R48, R58). -/
def Obligations.AssemblerLinesAreTheCommands : Prop :=
  (∀ i : Instr, i.line.wellFormed = true ∧ assembleLine i.line = some i) ∧
  (∀ (l : Line) (i : Instr), assembleLine l = some i → l = i.line) ∧
  (∀ l : Line, l.wellFormed = false → assembleLine l = none)

/-! ### The step -/

/-- When the word the host presents next is legal, the step is that command's `exec` on the state without that word; around
`exec` the step does nothing else (R37, R51). -/
def Obligations.StepRunsTheDecodedCommand : Prop :=
  ∀ (s : State) (w : Word) (rest : List Input) (i : Instr),
    s.inputs = .command w :: rest → decode w = .ok i → step s = exec i { s with inputs := rest }

/-- While the host does nothing the block is idle and its state stays (R129). -/
def Obligations.IdleBlockStaysAsItIs : Prop :=
  ∀ s : State, s.inputs = [] → step s = .next s

/-- Reset: `TV` = 0, `SE` = 0, `POLY` = 0x00, the tables unspecified; what was transferred before it stays transferred (R27,
R135, R136). -/
def Obligations.ResetGivesTheResetState : Prop :=
  ∀ (s : State) (rest : List Input), s.inputs = .reset :: rest →
    ∃ T : Tables, step s = .next
      { tables := T, poly := 0x00, tv := false, se := false, inputs := rest, responses := s.responses, draws := s.draws }

/-- R136: reset is the only event that clears `TV` or `SE`, and the only way to discard built tables or their polynomial. -/
def Obligations.OnlyResetClearsStatus : Prop :=
  ∀ s t : State, step s = .next t →
    (s.tv = true ∧ t.tv = false) ∨ (s.se = true ∧ t.se = false) ∨
      (s.tv = true ∧ (t.tables ≠ s.tables ∨ t.poly ≠ s.poly)) →
    ∃ rest : List Input, s.inputs = .reset :: rest ∨ ∃ w taken, s.inputs = .resetDuring w taken :: rest

/-- R137: a reset while a command is in flight abandons it. Of the beats the command would have produced those already
transferred stay, the others never come, and the state is the reset state whatever the command had done. -/
def Obligations.ResetDuringACommandAbandonsIt : Prop :=
  ∀ (s u : State) (w : Word) (taken : Nat) (rest : List Input),
    s.inputs = .resetDuring w taken :: rest →
    step { s with inputs := .command w :: rest } = .next u →
    ∃ T : Tables, step s = .next
      { tables := T
        poly := 0x00
        tv := false
        se := false
        inputs := rest
        responses := s.responses ++ (u.responses.drop s.responses.length).take taken
        draws := u.draws }

/-- R37: the host's actions are taken one at a time in the order presented, and a step only adds beats to those already
transferred. -/
def Obligations.StepTakesTheInputsInOrder : Prop :=
  ∀ s t : State, step s = .next t → t.inputs = s.inputs.tail ∧ ∃ bs, t.responses = s.responses ++ bs

/-! ### The Table Generator -/

/-- R65: doubling shifts left by one within the byte and, exactly when bit 7 was shifted out, XORs with the polynomial. -/
def Obligations.DoubleShiftsAndReduces : Prop :=
  ∀ v p : Byte,
    (v.toNat < 128 → double v p = BitVec.ofNat 8 (2 * v.toNat)) ∧
    (128 ≤ v.toNat → double v p = BitVec.ofNat 8 (2 * v.toNat - 256) ^^^ p) ∧
    double 0x00 p = 0x00 ∧ double 0x80 p = p ∧ double v 0x00 = BitVec.ofNat 8 (2 * v.toNat % 256)

/-- Doubling is multiplication by `x` modulo the reduction polynomial (R65: "this is carry-less polynomial multiplication by
x, modulo the reduction polynomial"). -/
def Obligations.DoubleIsMultiplicationByX : Prop :=
  ∀ v p : Byte, reductionPoly p ∣ Polynomial.X * toPoly v - toPoly (double v p)

/-- R66: entry 0 is 0x01 and every later entry the double of the one before it, for every one of the 256 polynomials; the
first eight entries are the powers of two and entry 8 is the polynomial. -/
def Obligations.ExponentTableIsBuiltByDoubling : Prop :=
  ∀ p : Byte,
    (buildExponentTable p)[0] = 0x01 ∧
    (∀ e : Nat, ∀ h : e + 1 < 255, (buildExponentTable p)[e + 1] = double (buildExponentTable p)[e] p) ∧
    (∀ e : Nat, ∀ h : e < 8, (buildExponentTable p)[e] = BitVec.ofNat 8 (2 ^ e)) ∧
    (buildExponentTable p)[8] = p

/-- R67: the construction fails exactly when two entries of the exponent table are equal; otherwise it inverts the table,
and exactly one slot keeps the sentinel. -/
def Obligations.LogarithmTableInvertsOrFails : Prop :=
  ∀ T : ExpTable,
    ((∃ e f : Fin 255, e < f ∧ T[e.val] = T[f.val]) → buildLogarithmTable T = none) ∧
    ((∀ e f : Fin 255, e < f → T[e.val] ≠ T[f.val]) →
      ∃ L : LogTable, buildLogarithmTable T = some L ∧
        (∀ e : Fin 255, logEntry ⟨T, L⟩ T[e.val] = exponentBits e) ∧
        (∀ v : Byte, (∀ e : Fin 255, T[e.val] ≠ v) → logEntry ⟨T, L⟩ v = 0xFFFF) ∧
        (∃! v : Byte, logEntry ⟨T, L⟩ v = 0xFFFF))

/-- R69: the gate decides the source's definition of validity: the 255 entries are the 255 nonzero bytes, each once, and the
last doubles to 0x01; the slot that keeps the sentinel is then slot 0. -/
def Obligations.GateDecidesTheFullCycle : Prop :=
  (∀ p : Byte, valid p = true ↔
    (∀ v : Byte, v ≠ 0 → ∃! e : Fin 255, (buildExponentTable p)[e.val] = v) ∧
    (∀ e : Fin 255, (buildExponentTable p)[e.val] ≠ 0) ∧
    double (buildExponentTable p)[254] p = 0x01) ∧
  (∀ (p : Byte) (L : LogTable), buildLogarithmTable (buildExponentTable p) = some L →
    logEntry ⟨buildExponentTable p, L⟩ 0 = 0xFFFF)

/-- R70: the exponent table of a candidate holds 0x00 for the polynomial 0x00 and no other; there slot 0 is written at
exponent 8 and the construction fails at exponent 9. -/
def Obligations.ZeroAppearsOnlyUnderPolynomialZero : Prop :=
  (∀ p : Byte, (∃ e : Fin 255, (buildExponentTable p)[e.val] = 0x00) ↔ p = 0x00) ∧
  (∃ L : ScratchLog, fillLog ((buildExponentTable 0x00).toList.take 9) 0 emptyScratch = some L ∧ slot L 0 = 8) ∧
  fillLog ((buildExponentTable 0x00).toList.take 10) 0 emptyScratch = none

/-- R77: exactly the sixteen listed values are valid; no even value is, and 0x1B is not, its table returning to 0x01 at
exponent 51. -/
def Obligations.ExactlySixteenPolynomialsAreValid : Prop :=
  (∀ p : Byte, valid p = true ↔ p ∈ listedPolynomials) ∧ listedPolynomials.length = 16 ∧
  (∀ p : Byte, p.toNat % 2 = 0 → valid p = false) ∧
  valid 0x1B = false ∧ (buildExponentTable 0x1B)[51] = 0x01

/-- A polynomial is valid exactly when `x` has order 255 modulo its reduction polynomial, that is, when the powers of `x` are
a cyclic group of order 255 (R2, R69, and the glossary's "primitive polynomial"). -/
def Obligations.ValidExactlyWhenXHasOrder255 : Prop :=
  ∀ p : Byte, valid p = true ↔
    reductionPoly p ∣ Polynomial.X ^ 255 - 1 ∧
    ∀ k : Nat, 0 < k → k < 255 → ¬ reductionPoly p ∣ Polynomial.X ^ k - 1

/-- R72, R73, R74: BUILD raises `E_BUILT` while `TV` = 1 whatever its operand, raises `E_BADPOLY` on a polynomial that is not
valid, and otherwise commits both tables, `POLY` and `TV` and answers `OK(0x0000)`, after which the table invariant holds.
A failed BUILD changes nothing but `SE`. -/
def Obligations.BuildCommitsOrRaises : Prop :=
  ∀ (p : Byte) (s : State),
    encode (.build p) = 0x01000000 ||| p.setWidth 32 <<< 16 ∧
    (s.tv = true → Raises (.build p) s .built) ∧
    (s.tv = false → valid p = false → Raises (.build p) s .badPoly) ∧
    (s.tv = false → valid p = true →
      ∃ (t : State) (L : LogTable),
        buildLogarithmTable (buildExponentTable p) = some L ∧
        t = { s with
          tables := ⟨buildExponentTable p, L⟩
          poly := p
          tv := true
          responses := s.responses ++ [⟨.ok, 0x0000⟩] } ∧
        exec (.build p) s = .next t ∧ Ready t) ∧
    (s.tv = false →
      ∃ t : State, exec (.build 0x1D) s = .next t ∧ t.poly = 0x1D ∧
        t.tables.exp[8] = 0x1D ∧ logEntry t.tables 0x03 = 25)

/-- R75, R76: SCAN answers the same seventeen beats in every state and changes no state. -/
def Obligations.ScanReportsTheSixteenAndChangesNothing : Prop :=
  ∀ s : State, ∃ bs : List Beat,
    exec .scan s = .next { s with responses := s.responses ++ bs } ∧
    bs = listedPolynomials.map (fun p => (⟨.item, p.setWidth 16⟩ : Beat)) ++ [⟨.ok, 0x0010⟩] ∧
    bs.map Beat.word =
      [0x0100001D, 0x0100002B, 0x0100002D, 0x0100004D, 0x0100005F, 0x01000063, 0x01000065, 0x01000069, 0x01000071,
       0x01000087, 0x0100008D, 0x010000A9, 0x010000C3, 0x010000CF, 0x010000E7, 0x010000F5, 0x00000010] ∧
    encode .scan = 0x02000000

/-- R79: BUILD of the standard polynomial succeeds; BUILD of 0x01 and of 0x02 is `E_BADPOLY`, their tables repeating an
element at exponent 8. -/
def Obligations.StandardAcceptedEarlyRepeatRejected : Prop :=
  ∀ s : State, s.tv = false →
    (∃ L : LogTable, exec (.build 0x1D) s = .next { s with
      tables := ⟨buildExponentTable 0x1D, L⟩
      poly := 0x1D
      tv := true
      responses := s.responses ++ [⟨.ok, 0x0000⟩] }) ∧
    Raises (.build 0x01) s .badPoly ∧ Raises (.build 0x02) s .badPoly ∧
    (buildExponentTable 0x01)[8] = 0x01 ∧ (buildExponentTable 0x02)[8] = 0x02

/-! ### The invariant -/

/-- The invariant holds after reset (R16, R27). -/
def Obligations.ResetMeetsTheInvariant : Prop := Inv State.reset

/-- Every step keeps the invariant: the tables match `POLY` while `TV` = 1, and `POLY` is 0x00 while `TV` = 0 (R15, R16,
R20). -/
def Obligations.EveryStepKeepsTheInvariant : Prop :=
  ∀ s t : State, Inv s → step s = .next t → Inv t

/-- R14, R15: what holds of committed tables: they are the tables of a valid `POLY`, `EXP[0]` is 0x01, `LOG[0]` the sentinel,
and the two tables are inverse bijections of the nonzero elements and the exponents 0..254. -/
def Obligations.CommittedTablesAreInverseBijections : Prop :=
  ∀ s : State, Inv s → s.tv = true →
    valid s.poly = true ∧ s.tables.exp = buildExponentTable s.poly ∧
    buildLogarithmTable s.tables.exp = some s.tables.log ∧
    s.tables.exp[0] = 0x01 ∧ logEntry s.tables 0 = 0xFFFF ∧
    (∀ a : Byte, a ≠ 0 → ∃ e : Fin 255, logEntry s.tables a = exponentBits e ∧ expEntry s.tables e = a) ∧
    (∀ e : Fin 255, expEntry s.tables e ≠ 0 ∧ logEntry s.tables (expEntry s.tables e) = exponentBits e)

/-- R26: the generator is the polynomial `x` whatever the polynomial is: `EXP[e]` is `x^e`, `EXP[1]` is 0x02, and the
logarithms of 0x01 and 0x02 are 0 and 1. -/
def Obligations.GeneratorIsX : Prop :=
  ∀ s : State, Inv s → s.tv = true →
    (∀ e : Fin 255, reductionPoly s.poly ∣ Polynomial.X ^ e.val - toPoly (expEntry s.tables e)) ∧
    s.tables.exp[1] = 0x02 ∧ logEntry s.tables 0x01 = 0 ∧ logEntry s.tables 0x02 = 1

/-! ### The Field Engine -/

/-- R86, R87: ADD and SUB answer the XOR of their operands in every state and change nothing. -/
def Obligations.AddAndSubAnswerTheXor : Prop :=
  ∀ (a b : Byte) (s : State),
    Answers (.add a b) s ((a ^^^ b).setWidth 16) ∧ Answers (.sub a b) s ((a ^^^ b).setWidth 16) ∧
    encode (.add a b) = 0x10000000 ||| a.setWidth 32 <<< 16 ||| b.setWidth 32 <<< 8 ∧
    encode (.sub a b) = 0x11000000 ||| a.setWidth 32 <<< 16 ||| b.setWidth 32 <<< 8 ∧
    gfAdd a 0 = a ∧ gfAdd a a = 0 ∧ gfSub 0 a = a ∧ gfSub a b = gfSub b a

/-- R88: MUL. Without tables `E_NOTABLE`; zero if an operand is zero; else, in a state that meets the invariant, the entry
of `EXP` at the sum of the two logarithms modulo 255, which is never zero. The examples are those of R88. -/
def Obligations.MulAnswersTheProduct : Prop :=
  ∀ (a b : Byte) (s : State),
    encode (.mul a b) = 0x12000000 ||| a.setWidth 32 <<< 16 ||| b.setWidth 32 <<< 8 ∧
    (s.tv = false → Raises (.mul a b) s .noTable) ∧
    (s.tv = true → a = 0 ∨ b = 0 → Answers (.mul a b) s 0x0000) ∧
    (Ready s → a ≠ 0 → b ≠ 0 → ∃ i j : Fin 255,
      logEntry s.tables a = exponentBits i ∧ logEntry s.tables b = exponentBits j ∧
      Answers (.mul a b) s ((expEntry s.tables (exponent (i.val + j.val))).setWidth 16) ∧
      expEntry s.tables (exponent (i.val + j.val)) ≠ 0) ∧
    (Ready s → Answers (.mul a 0x01) s (a.setWidth 16)) ∧
    (Ready s → s.poly = 0x1D →
      Answers (.mul 0x03 0x07) s 0x0009 ∧ Answers (.mul 0x02 0x8E) s 0x0001 ∧ Answers (.mul 0x8E 0x8E) s 0x0047)

/-- R89: DIV. Without tables `E_NOTABLE`; a zero dividend gives zero, also over a zero divisor; a nonzero dividend over zero
is `E_DIV0`; else, in a state that meets the invariant, the entry of `EXP` at the difference of the logarithms modulo 255. -/
def Obligations.DivAnswersTheQuotientOrRaises : Prop :=
  ∀ (a b : Byte) (s : State),
    encode (.div a b) = 0x13000000 ||| a.setWidth 32 <<< 16 ||| b.setWidth 32 <<< 8 ∧
    (s.tv = false → Raises (.div a b) s .noTable) ∧
    (s.tv = true → a = 0 → Answers (.div a b) s 0x0000) ∧
    (s.tv = true → a ≠ 0 → b = 0 → Raises (.div a b) s .div0) ∧
    (Ready s → a ≠ 0 → b ≠ 0 → ∃ i j : Fin 255,
      logEntry s.tables a = exponentBits i ∧ logEntry s.tables b = exponentBits j ∧
      Answers (.div a b) s ((expEntry s.tables (exponent (i.val + 255 - j.val))).setWidth 16)) ∧
    (Ready s → Answers (.div a 0x01) s (a.setWidth 16)) ∧
    (Ready s → a ≠ 0 → Answers (.div a a) s 0x0001) ∧
    (Ready s → Answers (.div 0x01 (expEntry s.tables 254)) s 0x0002) ∧
    (Ready s → s.poly = 0x1D →
      Answers (.div 0x09 0x03) s 0x0007 ∧ Answers (.div 0x03 0x07) s 0x00D3 ∧ Answers (.div 0x01 0x8E) s 0x0002)

/-- R91: INV gives for every state and operand what DIV gives for the dividend 0x01; so it is `E_DIV0` on zero, and else, in
a state that meets the invariant, the entry of `EXP` at 255 less the logarithm, modulo 255, whose product with the operand
is 0x01. -/
def Obligations.InvAnswersTheInverseOrRaises : Prop :=
  ∀ (a : Byte) (s : State),
    encode (.inv a) = 0x15000000 ||| a.setWidth 32 <<< 16 ∧
    exec (.inv a) s = exec (.div 0x01 a) s ∧
    (s.tv = false → Raises (.inv a) s .noTable) ∧
    (s.tv = true → a = 0 → Raises (.inv a) s .div0) ∧
    (Ready s → a ≠ 0 → ∃ i : Fin 255, logEntry s.tables a = exponentBits i ∧
      Answers (.inv a) s ((expEntry s.tables (exponent (255 - i.val))).setWidth 16) ∧
      gfMul s.tables a (expEntry s.tables (exponent (255 - i.val))) = .value 0x01) ∧
    (Ready s → Answers (.inv 0x01) s 0x0001) ∧
    (Ready s → Answers (.inv 0x02) s ((expEntry s.tables 254).setWidth 16)) ∧
    (Ready s → s.poly = 0x1D → Answers (.inv 0x53) s 0x008C ∧ Answers (.inv 0x02) s 0x008E)

/-- R90: POW. Without tables `E_NOTABLE`; a zero power gives one, also of zero; zero to a nonzero power is zero; else, in a
state that meets the invariant, the entry of `EXP` at the exact product of logarithm and power modulo 255. -/
def Obligations.PowAnswersThePower : Prop :=
  ∀ (a : Byte) (n : Half) (s : State),
    encode (.pow a n) = 0x14000000 ||| a.setWidth 32 <<< 16 ||| n.setWidth 32 ∧
    (s.tv = false → Raises (.pow a n) s .noTable) ∧
    (s.tv = true → n = 0 → Answers (.pow a n) s 0x0001) ∧
    (s.tv = true → n ≠ 0 → a = 0 → Answers (.pow a n) s 0x0000) ∧
    (Ready s → n ≠ 0 → a ≠ 0 → ∃ i : Fin 255, logEntry s.tables a = exponentBits i ∧
      Answers (.pow a n) s ((expEntry s.tables (exponent (i.val * n.toNat))).setWidth 16)) ∧
    (Ready s → Answers (.pow a 1) s (a.setWidth 16) ∧ Answers (.pow 0x01 n) s 0x0001) ∧
    (Ready s → a ≠ 0 → Answers (.pow a 255) s 0x0001 ∧ Answers (.pow a 65535) s 0x0001) ∧
    (Ready s → a ≠ 0 ∨ n ≠ 0 → n.toNat + 255 < 65536 → gfPow s.tables a n = gfPow s.tables a (n + 255)) ∧
    (Ready s → s.poly = 0x1D → Answers (.pow 0x02 8) s 0x001D ∧ Answers (.pow 0xFF 2) s 0x00E2)

/-- R92: in a state that meets the invariant every operand of the engine's exponent arithmetic is an exponent 0..254, the raw
sum, difference and product lie in their ranges, and each reduction is `mod 255` of the raw value, a legal index of `EXP`. -/
def Obligations.ExponentArithmeticStaysInRange : Prop :=
  ∀ (s : State) (a b : Byte) (n : Half), Ready s → a ≠ 0 → b ≠ 0 →
    ∃ i j : Fin 255, logValue s.tables a = (i.val : Int) ∧ logValue s.tables b = (j.val : Int) ∧
      i.val + j.val ≤ 508 ∧ -254 ≤ (i.val : Int) - j.val ∧ (i.val : Int) - j.val ≤ 254 ∧
      i.val * n.toNat ≤ 16645890 ∧
      reduceSum (logValue s.tables a + logValue s.tables b) = ((i.val + j.val : Int)) % 255 ∧
      reduceDiff (logValue s.tables a - logValue s.tables b) = ((i.val : Int) - j.val) % 255 ∧
      reduceProduct (logValue s.tables a * (n.toNat : Int)) = (i.val * n.toNat : Int) % 255 ∧
      (∀ m : Int, 0 ≤ m % 255 ∧ m % 255 ≤ 254 ∧ ∃ v : Byte, expAt s.tables (m % 255) = .value v)

/-- R85: while `TV` = 0 the table commands raise `E_NOTABLE` whatever their operands are, RDEXP and RDLOG among them (R105,
R106), while ADD and SUB answer. -/
def Obligations.TableCommandsNeedTheTables : Prop :=
  ∀ (s : State) (a b e : Byte) (n : Half), s.tv = false →
    Raises (.mul a b) s .noTable ∧ Raises (.div a b) s .noTable ∧ Raises (.pow a n) s .noTable ∧
    Raises (.inv a) s .noTable ∧ Raises (.rdexp e) s .noTable ∧ Raises (.rdlog a) s .noTable ∧
    Answers (.add a b) s ((a ^^^ b).setWidth 16) ∧ Answers (.sub a b) s ((a ^^^ b).setWidth 16)

/-- R93: in a state that meets the invariant ADD, SUB, MUL and POW answer a byte on all operands, and DIV answers one except
on a nonzero dividend and a zero divisor. -/
def Obligations.FieldOperationsAreClosedAndTotal : Prop :=
  ∀ (s : State) (a b : Byte) (n : Half), Ready s →
    (∃ v : Byte, Answers (.add a b) s (v.setWidth 16)) ∧
    (∃ v : Byte, Answers (.sub a b) s (v.setWidth 16)) ∧
    (∃ v : Byte, Answers (.mul a b) s (v.setWidth 16)) ∧
    (∃ v : Byte, Answers (.pow a n) s (v.setWidth 16)) ∧
    ((∃ v : Byte, Answers (.div a b) s (v.setWidth 16)) ↔ ¬ (a ≠ 0 ∧ b = 0))

/-- R94: identities and inverses. -/
def Obligations.IdentitiesAndInverses : Prop :=
  ∀ (s : State) (a b : Byte), Ready s →
    gfAdd a 0 = a ∧ gfMul s.tables a 0x01 = .value a ∧ gfAdd a (gfSub 0 a) = 0 ∧
    (a ≠ 0 → ∃ q : Byte, gfInv s.tables a = .value q ∧ gfMul s.tables a q = .value 0x01) ∧
    (a ≠ 0 → ∃ q : Byte, gfDiv s.tables b a = .value q ∧ gfMul s.tables a q = .value b)

/-- R95: addition and multiplication are associative and commutative. -/
def Obligations.AdditionAndMultiplicationAssociate : Prop :=
  ∀ (s : State) (a b c : Byte), Ready s →
    gfAdd a (gfAdd b c) = gfAdd (gfAdd a b) c ∧ gfAdd a b = gfAdd b a ∧
    gfMul s.tables a b = gfMul s.tables b a ∧
    ∃ ab bc r : Byte, gfMul s.tables a b = .value ab ∧ gfMul s.tables b c = .value bc ∧
      gfMul s.tables a bc = .value r ∧ gfMul s.tables ab c = .value r

/-- R97: `gf_mul` is the product of its operands as polynomials over GF(2), reduced modulo `x^8` + `POLY`, and `EXP[e]` is
`x^e`; so the product of 0x80 and 0x02 is the polynomial itself, and the fields differ. -/
def Obligations.MulIsThePolynomialProduct : Prop :=
  ∀ s : State, Ready s →
    (∀ a b : Byte, ∃ v : Byte, gfMul s.tables a b = .value v ∧
      reductionPoly s.poly ∣ toPoly a * toPoly b - toPoly v) ∧
    (∀ e : Fin 255, reductionPoly s.poly ∣ Polynomial.X ^ e.val - toPoly (expEntry s.tables e)) ∧
    gfMul s.tables 0x80 0x02 = .value s.poly

/-- POW is repeated multiplication: `a^0` is one and `a^(n+1)` is `a` times `a^n` (R90: "the field element `a` raised to the
power `n`"). -/
def Obligations.PowIsRepeatedMultiplication : Prop :=
  ∀ (s : State) (a : Byte), Ready s →
    gfPow s.tables a 0 = .value 0x01 ∧
    ∀ n : Nat, n + 1 < 65536 → ∃ v r : Byte,
      gfPow s.tables a (BitVec.ofNat 16 n) = .value v ∧
      gfPow s.tables a (BitVec.ofNat 16 (n + 1)) = .value r ∧ gfMul s.tables a v = .value r

/-- R96: the multiplication table is `gf_mul` for all pairs of bytes; row and column 0 are zero, row and column 1 are the
identity, and it is symmetric. -/
def Obligations.MultiplicationTableIsDerived : Prop :=
  ∀ (s : State) (i j : Byte), Ready s →
    multiplicationTable s.tables i j = gfMul s.tables i j ∧
    multiplicationTable s.tables 0 j = .value 0 ∧ multiplicationTable s.tables i 0 = .value 0 ∧
    multiplicationTable s.tables 0x01 j = .value j ∧ multiplicationTable s.tables i 0x01 = .value i ∧
    multiplicationTable s.tables i j = multiplicationTable s.tables j i

/-- R71: the mirrored table is the exponent table at the index modulo 255, up to the largest sum 508, and an implementation
that reads it without a reduction returns the bytes `gf_mul` returns. -/
def Obligations.MirroredTableGivesTheSameBytes : Prop :=
  (∀ (T : ExpTable) (k : Nat), k ≤ 508 → (mirroredTable T)[k]? = some T[(exponent k).val]) ∧
  (∀ (s : State) (a b : Byte), Ready s → a ≠ 0 → b ≠ 0 →
    ∃ (i j : Fin 255) (v : Byte), logEntry s.tables a = exponentBits i ∧ logEntry s.tables b = exponentBits j ∧
      (mirroredTable s.tables.exp)[i.val + j.val]? = some v ∧ gfMul s.tables a b = .value v)

/-! ### Table and status read-out -/

/-- R105: RDEXP. Without tables `E_NOTABLE`; index 255 is `E_INDEX`; every other index gives its entry. -/
def Obligations.RdexpReadsTheExponentTable : Prop :=
  ∀ (e : Byte) (s : State),
    encode (.rdexp e) = 0x20000000 ||| e.setWidth 32 <<< 16 ∧
    (s.tv = false → Raises (.rdexp e) s .noTable) ∧
    (s.tv = true → e = 255 → Raises (.rdexp e) s .index) ∧
    (s.tv = true → ∀ h : e.toNat < 255, Answers (.rdexp e) s (s.tables.exp[e.toNat].setWidth 16)) ∧
    (Ready s → Answers (.rdexp 0) s 0x0001 ∧ Answers (.rdexp 1) s 0x0002 ∧
      Answers (.rdexp 8) s (s.poly.setWidth 16)) ∧
    (Ready s → s.poly = 0x1D → Answers (.rdexp 254) s 0x008E)

/-- R106: RDLOG. Without tables `E_NOTABLE`; else the 16 bits stored: the sentinel for zero and for no other operand; RDEXP
of the low byte of the result gives the operand back. -/
def Obligations.RdlogReadsTheLogarithmTable : Prop :=
  ∀ (a : Byte) (s : State),
    encode (.rdlog a) = 0x21000000 ||| a.setWidth 32 <<< 16 ∧
    (s.tv = false → Raises (.rdlog a) s .noTable) ∧
    (s.tv = true → Answers (.rdlog a) s s.tables.log[a.toNat]) ∧
    (Ready s → (Answers (.rdlog a) s 0xFFFF ↔ a = 0)) ∧
    (Ready s → Answers (.rdlog 0x01) s 0x0000 ∧ Answers (.rdlog 0x02) s 0x0001) ∧
    (Ready s → a ≠ 0 → Answers (.rdexp (s.tables.log[a.toNat].setWidth 8)) s (a.setWidth 16)) ∧
    (Ready s → s.poly = 0x1D → Answers (.rdlog 0x03) s 0x0019 ∧ Answers (.rdlog 0x8E) s 0x00FE)

/-- R17, R107: RDSTS answers `POLY` and `STATUS` in every state and changes nothing; `STATUS` holds `TV` in bit 0, `SE` in
bit 1 and zeros. Under the invariant the answer is 0x0000 or 0x0002 without tables, and a valid polynomial with 0x01 or 0x03
with them. -/
def Obligations.RdstsReadsPolyAndStatus : Prop :=
  ∀ s : State,
    encode .rdsts = 0x22000000 ∧
    (∃ st : Byte, Answers .rdsts s (s.poly ++ st) ∧
      st.getLsbD 0 = s.tv ∧ st.getLsbD 1 = s.se ∧ ∀ k, 2 ≤ k → st.getLsbD k = false) ∧
    (Inv s → s.tv = false → Answers .rdsts s 0x0000 ∨ Answers .rdsts s 0x0002) ∧
    (Inv s → s.tv = true → ∃ p ∈ listedPolynomials,
      Answers .rdsts s (p ++ 0x01#8) ∨ Answers .rdsts s (p ++ 0x03#8)) ∧
    Answers .rdsts State.reset 0x0000

/-! ### Errors and the whole machine -/

/-- R118: whenever a command produces an error beat, that is its only beat, its word carries the code with zeros below it
down to `DATA`, `SE` becomes 1, and nothing else of the state changes. -/
def Obligations.ErrorsChangeOnlyTheStickyFlag : Prop :=
  ∀ (i : Instr) (s t : State) (bs : List Beat) (e : Err) (d : Half),
    exec i s = .next t → t.responses = s.responses ++ bs → (⟨.err e, d⟩ : Beat) ∈ bs →
      bs = [⟨.err e, d⟩] ∧
      Beat.word ⟨.err e, d⟩ = e.code.setWidth 32 <<< 24 ||| d.setWidth 32 ∧
      t = { s with se := true, responses := s.responses ++ [⟨.err e, d⟩], draws := s.draws + 1 }

/-- R117, R119: each error is raised exactly when its condition holds, the first in the order of R119; ADD, SUB, SCAN and
RDSTS raise none; a word that is no command raises `E_ILLEGAL` in every state; and the codes are those of R117. -/
def Obligations.ErrorsAreRaisedExactlyWhenListed : Prop :=
  (∀ (i : Instr) (s : State) (e : Err), Raises i s e ↔ errorOf i s = some e) ∧
  (∀ (w : Word) (s : State), (∀ i, decode w ≠ .ok i) →
    ∃ d : Half, runWord w s = .next
      { s with se := true, responses := s.responses ++ [⟨.err .illegal, d⟩], draws := s.draws + 1 }) ∧
  Err.code .illegal = 0x80 ∧ Err.code .noTable = 0x81 ∧ Err.code .div0 = 0x82 ∧
  Err.code .badPoly = 0x83 ∧ Err.code .built = 0x84 ∧ Err.code .index = 0x85

/-- R54: every command, and every word that is none, produces exactly one final beat, its last; only SCAN produces others,
sixteen of them, all `ITEM`; an error beat is the only beat of its command. -/
def Obligations.EveryCommandEndsInOneFinalBeat : Prop :=
  ∀ (w : Word) (s t : State), runWord w s = .next t →
    ∃ (items : List Beat) (last : Beat),
      t.responses = s.responses ++ items ++ [last] ∧ last.status.isFinal = true ∧
      (∀ b ∈ items, b.status = .item) ∧
      (decode w ≠ .ok .scan → items = []) ∧
      (decode w = .ok .scan → items.length = 16 ∧ last = ⟨.ok, 0x0010⟩) ∧
      (last.status.isError = true → items = [])

/-- R19: `SE` is 0 after reset; a command that completes with an error sets it, one that completes with `OK` leaves it, and no
command clears it; it affects the beats and the state of no command but RDSTS, which reads it. -/
def Obligations.StickyErrorRecordsAndAffectsNothing : Prop :=
  State.reset.se = false ∧
  (∀ (w : Word) (s t : State) (last : Beat), runWord w s = .next t → t.responses.getLast? = some last →
    (last.status.isError = true → t.se = true) ∧ (last.status = .ok → t.se = s.se) ∧ (s.se = true → t.se = true)) ∧
  (∀ (i : Instr) (s t : State) (flag : Bool), i ≠ .rdsts → exec i s = .next t →
    ∃ u : State, exec i { s with se := flag } = .next u ∧ u.responses = t.responses ∧
      u.tables = t.tables ∧ u.poly = t.poly ∧ u.tv = t.tv)

/-- `TV` is 0 after reset and is set by a step whose command is a BUILD of a valid polynomial, and by no other (R18). -/
def Obligations.OnlyBuildSetsTablesValid : Prop :=
  State.reset.tv = false ∧
  (∀ s t : State, step s = .next t → s.tv = false → t.tv = true →
    ∃ (p : Byte) (rest : List Input), s.inputs = .command (encode (.build p)) :: rest ∧ valid p = true ∧
      t.poly = p ∧ t.tables.exp = buildExponentTable p)

/-- R20: while `TV` = 1 no command writes `EXP`, `LOG` or `POLY`, or clears `TV`; and commands other than BUILD write none of
them in any state. -/
def Obligations.BuiltTablesAreImmutable : Prop :=
  (∀ (i : Instr) (s t : State), s.tv = true → exec i s = .next t →
    t.tables = s.tables ∧ t.poly = s.poly ∧ t.tv = true) ∧
  (∀ (i : Instr) (s t : State), isBuild i = false → exec i s = .next t →
    t.tables = s.tables ∧ t.poly = s.poly ∧ t.tv = s.tv)

/-- The frame of all eleven commands: the host's coming actions are untouched and the beats already transferred stay; `SE`
and the count of draws change only with an error; `EXP`, `LOG`, `POLY` and `TV` change only in a BUILD that raises none (R30,
R85, R108, R118). -/
def Obligations.CommandsLeaveTheRestUnchanged : Prop :=
  ∀ (i : Instr) (s t : State), exec i s = .next t →
    t.inputs = s.inputs ∧ (∃ bs, t.responses = s.responses ++ bs) ∧
    (errorOf i s = none → t.se = s.se ∧ t.draws = s.draws) ∧
    (isBuild i = false ∨ errorOf i s ≠ none → t.tables = s.tables ∧ t.poly = s.poly ∧ t.tv = s.tv)

/-- Built once: along any run in which the host only presents commands, tables that are valid, and their polynomial, stay as
they are (R20, R29, R136). -/
def Obligations.BuiltFieldLastsUntilReset : Prop :=
  ∀ (k : Nat) (s t : State), s.tv = true → (∀ x ∈ s.inputs, ∃ w, x = .command w) →
    Host.Core.run Sys2Proof.core k s = .next t →
    t.tables = s.tables ∧ t.poly = s.poly ∧ t.tv = true ∧ ∀ x ∈ t.inputs, ∃ w, x = .command w

/-- From a state that meets the invariant no step faults or is refused, however long the run and whatever the host does:
every command completes, and the implicit accesses to the tables are always in range (R35, R145). -/
def Obligations.NoRunStopsUnderTheInvariant : Prop :=
  ∀ (k : Nat) (s : State), Inv s → ∃ t : State, Host.Core.run Sys2Proof.core k s = .next t ∧ Inv t

/-- ADD, SUB, MUL, DIV, POW, INV, RDEXP and RDLOG are functions of their operands and the tables: in two states with the
same tables and `TV` the same command gives the same status, and on `OK` the same result, whatever else the states hold
(R39, R85). -/
def Obligations.ResponsesDependOnTheTablesAlone : Prop :=
  ∀ (i : Instr) (s u t : State), readsOnlyTables i = true → u.tables = s.tables → u.tv = s.tv →
    exec i s = .next t →
    ∃ (t' : State) (b b' : Beat), exec i u = .next t' ∧
      t.responses = s.responses ++ [b] ∧ t'.responses = u.responses ++ [b'] ∧
      b.status = b'.status ∧ (b.status = .ok → b.data = b'.data)

/-- While `TV` = 0 the contents of `EXP` and `LOG` cannot be observed: with any other contents the step gives the same beats
and the same flags, and if it builds tables, the same tables (R27). It says that nothing rests on the contents the model
names for reset (log entry 1). -/
def Obligations.UnbuiltTablesAreUnobservable : Prop :=
  ∀ (s t : State) (T : Tables), s.tv = false → step s = .next t →
    ∃ u : State, step { s with tables := T } = .next u ∧
      u.responses = t.responses ∧ u.inputs = t.inputs ∧ u.poly = t.poly ∧ u.tv = t.tv ∧ u.se = t.se ∧
      (t.tv = true → u.tables = t.tables)

/-- R53: the codes of the statuses and which are final; a status is an error exactly when bit 7 of its code is 1. The word
of a beat holds the code in 31:24, zeros in 23:16 and `DATA` in 15:0 (R52). -/
def Obligations.ResponseWordLayout : Prop :=
  (∀ b : Beat, b.word.toNat / 2 ^ 24 = b.status.code.toNat ∧ b.word.toNat / 2 ^ 16 % 2 ^ 8 = 0 ∧
    b.word.toNat % 2 ^ 16 = b.data.toNat) ∧
  (∀ st : Status, st.isError = true ↔ st.code.getLsbD 7 = true) ∧
  (∀ st : Status, st.isFinal = false ↔ st = .item) ∧
  Status.code .ok = 0x00 ∧ Status.code .item = 0x01 ∧ Status.code (.err .illegal) = 0x80 ∧
  Status.code (.err .noTable) = 0x81 ∧ Status.code (.err .div0) = 0x82 ∧ Status.code (.err .badPoly) = 0x83 ∧
  Status.code (.err .built) = 0x84 ∧ Status.code (.err .index) = 0x85

/-- R27: after reset `TV` = 0, `SE` = 0, `STATUS` = 0x00 and `POLY` = 0x00, and every command that reads a table raises
`E_NOTABLE`. No command is in flight: the block is idle while the host presents nothing, and runs the first word it does
present in the very next step. That `inputs` is empty in `State.reset` is the model's choice (log entry 3) and not stated;
nor are the contents of the tables, which the spec leaves open. -/
def Obligations.ResetValues : Prop :=
  State.reset.tv = false ∧ State.reset.se = false ∧ statusByte State.reset = 0x00 ∧ State.reset.poly = 0x00 ∧
  step { State.reset with inputs := [] } = .next { State.reset with inputs := [] } ∧
  (∀ (w : Word) (rest : List Input),
    step { State.reset with inputs := .command w :: rest } = runWord w { State.reset with inputs := rest }) ∧
  ∀ (a b : Byte) (n : Half),
    Raises (.mul a b) State.reset .noTable ∧ Raises (.div a b) State.reset .noTable ∧
    Raises (.pow a n) State.reset .noTable ∧ Raises (.inv a) State.reset .noTable ∧
    Raises (.rdexp a) State.reset .noTable ∧ Raises (.rdlog a) State.reset .noTable
end

