-- ==== Sys2Proof/Laws/Encoding.lean ====
section
/-! SUPPORT. The words of the formats (R46, R58): their fields, and each under the mask of its rows. -/

namespace Sys2Proof

/-- The opcode field of an F1 word. -/
@[simp] theorem fieldOpc_wordF1 (opc a : Byte) : fieldOpc (wordF1 opc a) = opc := by
  apply BitVec.eq_of_getLsbD_eq
  intro i hi
  interval_cases i <;> simp [fieldOpc, wordF1, byteAt]

/-- The operand field `A` of an F1 word. -/
@[simp] theorem fieldA_wordF1 (opc a : Byte) : fieldA (wordF1 opc a) = a := by
  apply BitVec.eq_of_getLsbD_eq
  intro i hi
  interval_cases i <;> simp [fieldA, wordF1, byteAt]

/-- The low half of an F1 word. -/
@[simp] theorem fieldN_wordF1 (opc a : Byte) : fieldN (wordF1 opc a) = 0 := by
  apply BitVec.eq_of_getLsbD_eq
  intro i hi
  interval_cases i <;> simp [fieldN, wordF1, byteAt]

/-- The opcode field of an F2 word. -/
@[simp] theorem fieldOpc_wordF2 (opc a b : Byte) : fieldOpc (wordF2 opc a b) = opc := by
  apply BitVec.eq_of_getLsbD_eq
  intro i hi
  interval_cases i <;> simp [fieldOpc, wordF2, byteAt]

/-- The operand field `A` of an F2 word. -/
@[simp] theorem fieldA_wordF2 (opc a b : Byte) : fieldA (wordF2 opc a b) = a := by
  apply BitVec.eq_of_getLsbD_eq
  intro i hi
  interval_cases i <;> simp [fieldA, wordF2, byteAt]

/-- The operand field `B` of an F2 word. -/
@[simp] theorem fieldB_wordF2 (opc a b : Byte) : fieldB (wordF2 opc a b) = b := by
  apply BitVec.eq_of_getLsbD_eq
  intro i hi
  interval_cases i <;> simp [fieldB, wordF2, byteAt]

/-- The reserved field `Z` of an F2 word. -/
@[simp] theorem fieldZ_wordF2 (opc a b : Byte) : fieldZ (wordF2 opc a b) = 0 := by
  apply BitVec.eq_of_getLsbD_eq
  intro i hi
  interval_cases i <;> simp [fieldZ, wordF2, byteAt]

/-- The opcode field of an FN word. -/
@[simp] theorem fieldOpc_wordFN (opc a : Byte) (n : Half) : fieldOpc (wordFN opc a n) = opc := by
  apply BitVec.eq_of_getLsbD_eq
  intro i hi
  interval_cases i <;> simp [fieldOpc, wordFN, byteAt]

/-- The operand field `A` of an FN word. -/
@[simp] theorem fieldA_wordFN (opc a : Byte) (n : Half) : fieldA (wordFN opc a n) = a := by
  apply BitVec.eq_of_getLsbD_eq
  intro i hi
  interval_cases i <;> simp [fieldA, wordFN, byteAt]

/-- The low half of an FN word. -/
@[simp] theorem fieldN_wordFN (opc a : Byte) (n : Half) : fieldN (wordFN opc a n) = n := by
  apply BitVec.eq_of_getLsbD_eq
  intro i hi
  interval_cases i <;> simp [fieldN, wordFN, byteAt]

/-- Under the mask of F1 such a word keeps its opcode and nothing else (R51). -/
theorem wordF1_masked (opc a : Byte) : wordF1 opc a &&& 0xFF00FFFF#32 = byteAt opc 24 := by
  apply BitVec.eq_of_getLsbD_eq
  intro i hi
  interval_cases i <;> simp [wordF1, byteAt]

/-- Under the mask of F2 such a word keeps its opcode and nothing else (R51). -/
theorem wordF2_masked (opc a b : Byte) : wordF2 opc a b &&& 0xFF0000FF#32 = byteAt opc 24 := by
  apply BitVec.eq_of_getLsbD_eq
  intro i hi
  interval_cases i <;> simp [wordF2, byteAt]

/-- Under the mask of FN such a word keeps its opcode and nothing else (R51). -/
theorem wordFN_masked (opc a : Byte) (n : Half) : wordFN opc a n &&& 0xFF000000#32 = byteAt opc 24 := by
  apply BitVec.eq_of_getLsbD_eq
  intro i hi
  interval_cases i <;> simp [wordFN, byteAt]

/-- Every word is the FN word of its opcode, its operand `A` and its low half. -/
theorem word_eq_wordFN (w : Word) : w = wordFN (fieldOpc w) (fieldA w) (fieldN w) := by
  apply BitVec.eq_of_getLsbD_eq
  intro i hi
  interval_cases i <;> simp [wordFN, byteAt, fieldOpc, fieldA, fieldN]

/-- Every word is the F2 word of its opcode and its operands `A` and `B`, and its reserved byte. -/
theorem word_eq_wordF2 (w : Word) :
    w = wordF2 (fieldOpc w) (fieldA w) (fieldB w) ||| (fieldZ w).setWidth 32 := by
  apply BitVec.eq_of_getLsbD_eq
  intro i hi
  interval_cases i <;> simp [wordF2, byteAt, fieldOpc, fieldA, fieldB, fieldZ]

/-- The opcode field of an F0 word. -/
@[simp] theorem fieldOpc_byteAt (opc : Byte) : fieldOpc (byteAt opc 24) = opc := by
  apply BitVec.eq_of_getLsbD_eq
  intro i hi
  interval_cases i <;> simp [fieldOpc, byteAt]

end Sys2Proof
end

