-- ==== Sys2Proof/Laws/State.lean ====
section
/-! SUPPORT. What each named update of the state does to each field, one lemma per field, and the bits of `STATUS`. -/

namespace Sys2Proof.Machine

/-! ### `emit` -/

@[simp] theorem emit_tables (bs : List Beat) (s : State) : (emit bs s).tables = s.tables := rfl
@[simp] theorem emit_poly (bs : List Beat) (s : State) : (emit bs s).poly = s.poly := rfl
@[simp] theorem emit_tv (bs : List Beat) (s : State) : (emit bs s).tv = s.tv := rfl
@[simp] theorem emit_se (bs : List Beat) (s : State) : (emit bs s).se = s.se := rfl
@[simp] theorem emit_inputs (bs : List Beat) (s : State) : (emit bs s).inputs = s.inputs := rfl
@[simp] theorem emit_responses (bs : List Beat) (s : State) : (emit bs s).responses = s.responses ++ bs := rfl
@[simp] theorem emit_draws (bs : List Beat) (s : State) : (emit bs s).draws = s.draws := rfl

/-! ### `respond` -/

@[simp] theorem respond_tables (v : Half) (s : State) : (respond v s).tables = s.tables := rfl
@[simp] theorem respond_poly (v : Half) (s : State) : (respond v s).poly = s.poly := rfl
@[simp] theorem respond_tv (v : Half) (s : State) : (respond v s).tv = s.tv := rfl
@[simp] theorem respond_se (v : Half) (s : State) : (respond v s).se = s.se := rfl
@[simp] theorem respond_inputs (v : Half) (s : State) : (respond v s).inputs = s.inputs := rfl
@[simp] theorem respond_responses (v : Half) (s : State) : (respond v s).responses = s.responses ++ [⟨.ok, v⟩] := rfl
@[simp] theorem respond_draws (v : Half) (s : State) : (respond v s).draws = s.draws := rfl

/-! ### `setSticky` -/

@[simp] theorem setSticky_tables (s : State) : (setSticky s).tables = s.tables := rfl
@[simp] theorem setSticky_poly (s : State) : (setSticky s).poly = s.poly := rfl
@[simp] theorem setSticky_tv (s : State) : (setSticky s).tv = s.tv := rfl
@[simp] theorem setSticky_se (s : State) : (setSticky s).se = true := rfl
@[simp] theorem setSticky_inputs (s : State) : (setSticky s).inputs = s.inputs := rfl
@[simp] theorem setSticky_responses (s : State) : (setSticky s).responses = s.responses := rfl
@[simp] theorem setSticky_draws (s : State) : (setSticky s).draws = s.draws := rfl

/-! ### `setTablesValid` -/

@[simp] theorem setTablesValid_tables (s : State) : (setTablesValid s).tables = s.tables := rfl
@[simp] theorem setTablesValid_poly (s : State) : (setTablesValid s).poly = s.poly := rfl
@[simp] theorem setTablesValid_tv (s : State) : (setTablesValid s).tv = true := rfl
@[simp] theorem setTablesValid_se (s : State) : (setTablesValid s).se = s.se := rfl
@[simp] theorem setTablesValid_inputs (s : State) : (setTablesValid s).inputs = s.inputs := rfl
@[simp] theorem setTablesValid_responses (s : State) : (setTablesValid s).responses = s.responses := rfl
@[simp] theorem setTablesValid_draws (s : State) : (setTablesValid s).draws = s.draws := rfl

/-! ### `advanceDraws` -/

@[simp] theorem advanceDraws_tables (s : State) : (advanceDraws s).tables = s.tables := rfl
@[simp] theorem advanceDraws_poly (s : State) : (advanceDraws s).poly = s.poly := rfl
@[simp] theorem advanceDraws_tv (s : State) : (advanceDraws s).tv = s.tv := rfl
@[simp] theorem advanceDraws_se (s : State) : (advanceDraws s).se = s.se := rfl
@[simp] theorem advanceDraws_inputs (s : State) : (advanceDraws s).inputs = s.inputs := rfl
@[simp] theorem advanceDraws_responses (s : State) : (advanceDraws s).responses = s.responses := rfl
@[simp] theorem advanceDraws_draws (s : State) : (advanceDraws s).draws = s.draws + 1 := rfl

/-! ### `raise` -/

@[simp] theorem raise_tables (e : Err) (s : State) : (raise e s).tables = s.tables := rfl
@[simp] theorem raise_poly (e : Err) (s : State) : (raise e s).poly = s.poly := rfl
@[simp] theorem raise_tv (e : Err) (s : State) : (raise e s).tv = s.tv := rfl
@[simp] theorem raise_se (e : Err) (s : State) : (raise e s).se = true := rfl
@[simp] theorem raise_inputs (e : Err) (s : State) : (raise e s).inputs = s.inputs := rfl
@[simp] theorem raise_responses (e : Err) (s : State) : (raise e s).responses = s.responses ++ [⟨.err e, Config.errorData s.draws⟩] := rfl
@[simp] theorem raise_draws (e : Err) (s : State) : (raise e s).draws = s.draws + 1 := rfl

/-! ### `commitTables` -/

@[simp] theorem commitTables_tables (p : Byte) (T : ExpTable) (L : LogTable) (s : State) : (commitTables p T L s).tables = { exp := T, log := L } := rfl
@[simp] theorem commitTables_poly (p : Byte) (T : ExpTable) (L : LogTable) (s : State) : (commitTables p T L s).poly = p := rfl
@[simp] theorem commitTables_tv (p : Byte) (T : ExpTable) (L : LogTable) (s : State) : (commitTables p T L s).tv = true := rfl
@[simp] theorem commitTables_se (p : Byte) (T : ExpTable) (L : LogTable) (s : State) : (commitTables p T L s).se = s.se := rfl
@[simp] theorem commitTables_inputs (p : Byte) (T : ExpTable) (L : LogTable) (s : State) : (commitTables p T L s).inputs = s.inputs := rfl
@[simp] theorem commitTables_responses (p : Byte) (T : ExpTable) (L : LogTable) (s : State) : (commitTables p T L s).responses = s.responses := rfl
@[simp] theorem commitTables_draws (p : Byte) (T : ExpTable) (L : LogTable) (s : State) : (commitTables p T L s).draws = s.draws := rfl

/-! ### `resetBlock` -/

@[simp] theorem resetBlock_tables (s : State) : (resetBlock s).tables = State.reset.tables := rfl
@[simp] theorem resetBlock_poly (s : State) : (resetBlock s).poly = 0x00 := rfl
@[simp] theorem resetBlock_tv (s : State) : (resetBlock s).tv = false := rfl
@[simp] theorem resetBlock_se (s : State) : (resetBlock s).se = false := rfl
@[simp] theorem resetBlock_inputs (s : State) : (resetBlock s).inputs = s.inputs := rfl
@[simp] theorem resetBlock_responses (s : State) : (resetBlock s).responses = s.responses := rfl
@[simp] theorem resetBlock_draws (s : State) : (resetBlock s).draws = s.draws := rfl

/-! ### `present` -/

@[simp] theorem present_tables (w : Word) (s : State) : (present w s).tables = s.tables := rfl
@[simp] theorem present_poly (w : Word) (s : State) : (present w s).poly = s.poly := rfl
@[simp] theorem present_tv (w : Word) (s : State) : (present w s).tv = s.tv := rfl
@[simp] theorem present_se (w : Word) (s : State) : (present w s).se = s.se := rfl
@[simp] theorem present_inputs (w : Word) (s : State) : (present w s).inputs = .command w :: s.inputs := rfl
@[simp] theorem present_responses (w : Word) (s : State) : (present w s).responses = s.responses := rfl
@[simp] theorem present_draws (w : Word) (s : State) : (present w s).draws = s.draws := rfl

/-! ### `STATUS` -/

/-- Bit 0 of `STATUS` is `TV` (R17). -/
@[simp] theorem statusByte_bit0 (s : State) : (statusByte s).getLsbD 0 = s.tv := by
  cases h : s.tv <;> cases h' : s.se <;> simp [statusByte, h, h']

/-- Bit 1 of `STATUS` is `SE` (R17). -/
@[simp] theorem statusByte_bit1 (s : State) : (statusByte s).getLsbD 1 = s.se := by
  cases h : s.tv <;> cases h' : s.se <;> simp [statusByte, h, h']

/-- `STATUS` depends on the two flags alone. -/
theorem statusByte_congr {s t : State} (htv : s.tv = t.tv) (hse : s.se = t.se) : statusByte s = statusByte t := by
  simp [statusByte, htv, hse]

end Sys2Proof.Machine
end

