-- ==== Sys2Proof/Laws/Ops.lean ====
section
/-! SUPPORT. One lemma for each shared operation that says everything it can do. -/

namespace Sys2Proof.Machine

variable {s t : State}

/-- A command behind the `TV` test either runs with the tables valid or raises `E_NOTABLE` (R85). -/
theorem needTables_eq (s : State) (run : Host.Outcome State Fault Refusal) :
    (s.tv = true ∧ needTables s run = run) ∨ (s.tv = false ∧ needTables s run = .next (raise .noTable s)) := by
  cases h : s.tv <;> simp [needTables, h]

/-- With the tables valid the `TV` test passes. -/
@[simp] theorem needTables_valid (h : s.tv = true) (run : Host.Outcome State Fault Refusal) :
    needTables s run = run := by simp [needTables, h]

/-- Without tables the command is `E_NOTABLE`. -/
@[simp] theorem needTables_absent (h : s.tv = false) (run : Host.Outcome State Fault Refusal) :
    needTables s run = .next (raise .noTable s) := by simp [needTables, h]

/-- If a field command goes on, it has answered a byte or raised `E_DIV0`. -/
theorem answer_next {r : EngineResult} (h : answer r s = .next t) :
    (∃ v, r = .value v ∧ t = respond (zext16 v) s) ∨ (r = .divByZero ∧ t = raise .div0 s) := by
  cases r with
  | value v => exact .inl ⟨v, rfl, by simpa [answer] using h.symm⟩
  | divByZero => exact .inr ⟨rfl, by simpa [answer] using h.symm⟩
  | noEntry => simp [answer] at h

/-- At an exponent 0..254 the read of `EXP` gives its entry. -/
theorem expAt_of_lt (t : Tables) {i : Nat} (h : i < 255) : expAt t (i : Int) = .value t.exp[i] := by
  simp [expAt, h]

/-- The read of `EXP` is never a division by zero. -/
theorem expAt_cases (t : Tables) (i : Int) :
    (∃ e : Nat, ∃ h : e < 255, i = e ∧ expAt t i = .value t.exp[e]) ∨ ((i < 0 ∨ 255 ≤ i) ∧ expAt t i = .noEntry) := by
  by_cases h : 0 ≤ i ∧ i < 255
  · refine .inl ⟨i.toNat, by omega, by omega, ?_⟩
    simp [expAt, h]
  · exact .inr ⟨by omega, by simp [expAt, h]⟩

/-- A `LOG` entry that holds an exponent reads as that number. -/
theorem logValue_of_entry {tb : Tables} {a : Byte} {e : Nat} (he : e < 255)
    (h : logEntry tb a = BitVec.ofNat 16 e) : logValue tb a = (e : Int) := by
  rw [logValue, h, BitVec.toInt_eq_toNat_of_msb]
  · simp; omega
  · simp [BitVec.msb_eq_decide]; omega

/-- The sum of two exponents reduces to its remainder modulo 255 (R92). -/
theorem reduceSum_of_lt {i j : Nat} (hi : i < 255) (hj : j < 255) :
    reduceSum ((i : Int) + j) = ((i + j) % 255 : Nat) := by
  unfold reduceSum; split <;> omega

/-- A legal word runs its command. -/
theorem runWord_ok {w : Word} {i : Instr} (h : decode w = .ok i) (s : State) : runWord w s = exec i s := by
  simp [runWord, h]

/-- Every other word raises `E_ILLEGAL` (R50). -/
theorem runWord_error {w : Word} {x : Illegal} (h : decode w = .error x) (s : State) :
    runWord w s = .next (raise .illegal s) := by
  simp [runWord, h]

/-- What a step can do, by what the host does next. -/
theorem step_cases (h : step s = .next t) :
    (s.inputs = [] ∧ t = s) ∨
    (∃ w rest, s.inputs = .command w :: rest ∧ runWord w { s with inputs := rest } = .next t) ∨
    (∃ rest, s.inputs = .reset :: rest ∧ t = resetBlock { s with inputs := rest }) ∨
    (∃ w taken rest, s.inputs = .resetDuring w taken :: rest ∧
      abandonWord w taken { s with inputs := rest } = .next t) := by
  unfold step takeInput at h
  split at h
  · rename_i hi; exact .inl ⟨hi, by simpa using h.symm⟩
  · rename_i w rest hi; exact .inr (.inl ⟨w, rest, hi, h⟩)
  · rename_i rest hi; exact .inr (.inr (.inl ⟨rest, hi, by simpa using h.symm⟩))
  · rename_i w taken rest hi; exact .inr (.inr (.inr ⟨w, taken, rest, hi, h⟩))

/-- What a reset during a command leaves. -/
theorem abandonWord_next {w : Word} {taken : Nat} (h : abandonWord w taken s = .next t) :
    ∃ u, runWord w { s with responses := [] } = .next u ∧
      t = resetBlock { u with responses := s.responses ++ u.responses.take taken } := by
  unfold abandonWord at h
  split at h
  · rename_i u hu; exact ⟨u, hu, by simpa using h.symm⟩
  · simp at h
  · simp at h

end Sys2Proof.Machine
end

