-- ==== Sys2Proof/Laws/Exec.lean ====
section
/-! SUPPORT. Everything a command can do, said once: it raises the error its condition names, or answers, or scans, or
commits a table. Every claim about all commands is a case analysis on `exec_cases`. -/

namespace Sys2Proof.Machine

variable {s t : State}

/-- The read of `EXP` is no division by zero. -/
theorem expAt_ne_divByZero (tb : Tables) (i : Int) : expAt tb i ≠ .divByZero := by
  unfold expAt; split <;> simp

/-- A product is no division by zero. -/
theorem gfMul_ne_divByZero (tb : Tables) (a b : Byte) : gfMul tb a b ≠ .divByZero := by
  unfold gfMul; split
  · simp
  · exact expAt_ne_divByZero _ _

/-- A power is no division by zero. -/
theorem gfPow_ne_divByZero (tb : Tables) (a : Byte) (n : Half) : gfPow tb a n ≠ .divByZero := by
  unfold gfPow; split
  · simp
  · split
    · simp
    · exact expAt_ne_divByZero _ _

/-- A division by zero is what R89 says it is. -/
theorem gfDiv_eq_divByZero (tb : Tables) (a b : Byte) : gfDiv tb a b = .divByZero ↔ a ≠ 0 ∧ b = 0 := by
  unfold gfDiv; split
  · simp_all
  · split
    · simp_all
    · simp_all [expAt_ne_divByZero]

/-- What a command behind the `TV` test that ends in `answer` can do. -/
theorem needTables_answer_next {r : EngineResult} (h : needTables s (answer r s) = .next t) :
    (s.tv = false ∧ t = raise .noTable s) ∨
    (s.tv = true ∧ ∃ v, r = .value v ∧ t = respond (zext16 v) s) ∨
    (s.tv = true ∧ r = .divByZero ∧ t = raise .div0 s) := by
  obtain ⟨htv, h1⟩ | ⟨htv, h1⟩ := needTables_eq s (answer r s)
  · rw [h1] at h
    obtain h2 | h2 := answer_next h
    · exact .inr (.inl ⟨htv, h2⟩)
    · exact .inr (.inr ⟨htv, h2⟩)
  · rw [h1] at h
    exact .inl ⟨htv, by simpa using h.symm⟩

/-- If a command goes on, it has raised the error of its condition, or answered one value with no error, or it is SCAN with
its beats, or a BUILD that has committed the tables of a valid polynomial. -/
theorem exec_cases {i : Instr} (h : exec i s = .next t) :
    (∃ e, errorOf i s = some e ∧ t = raise e s) ∨
    (errorOf i s = none ∧ isBuild i = false ∧ i ≠ .scan ∧ ∃ v, t = respond v s) ∨
    (i = .scan ∧ t = emit (scanBeats validPolynomials) s) ∨
    (∃ p L, i = .build p ∧ s.tv = false ∧ valid p = true ∧
      buildLogarithmTable (buildExponentTable p) = some L ∧
      t = respond 0 (commitTables p (buildExponentTable p) L s)) := by
  cases i with
  | build p =>
    simp only [exec, execBuild] at h
    split at h
    · rename_i htv
      exact .inl ⟨.built, by simp [errorOf, htv], by simpa using h.symm⟩
    · rename_i htv
      split at h
      · rename_i hb
        exact .inl ⟨.badPoly, by simp [errorOf, htv, valid, hb], by simpa using h.symm⟩
      · rename_i L hb
        exact .inr (.inr (.inr ⟨p, L, rfl, by simpa using htv, by simp [valid, hb], hb, by simpa using h.symm⟩))
  | scan => exact .inr (.inr (.inl ⟨rfl, by simpa [exec, execScan] using h.symm⟩))
  | add a b => exact .inr (.inl ⟨rfl, rfl, by simp, _, by simpa [exec, execAdd] using h.symm⟩)
  | sub a b => exact .inr (.inl ⟨rfl, rfl, by simp, _, by simpa [exec, execSub] using h.symm⟩)
  | mul a b =>
    obtain ⟨htv, h1⟩ | ⟨htv, v, _, h1⟩ | ⟨_, h1, _⟩ := needTables_answer_next h
    · exact .inl ⟨.noTable, by simp [errorOf, htv], h1⟩
    · exact .inr (.inl ⟨by simp [errorOf, htv], rfl, by simp, _, h1⟩)
    · exact absurd h1 (gfMul_ne_divByZero _ _ _)
  | div a b =>
    obtain ⟨htv, h1⟩ | ⟨htv, v, h0, h1⟩ | ⟨htv, h0, h1⟩ := needTables_answer_next h
    · exact .inl ⟨.noTable, by simp [errorOf, htv], h1⟩
    · have h2 : ¬ (a ≠ 0 ∧ b = 0) := by rw [← gfDiv_eq_divByZero s.tables]; simp [h0]
      exact .inr (.inl ⟨by simp only [errorOf, htv, if_true, if_neg h2], rfl, by simp, _, h1⟩)
    · rw [gfDiv_eq_divByZero] at h0
      exact .inl ⟨.div0, by simp only [errorOf, htv, if_true, if_pos h0], h1⟩
  | pow a n =>
    obtain ⟨htv, h1⟩ | ⟨htv, v, _, h1⟩ | ⟨_, h1, _⟩ := needTables_answer_next h
    · exact .inl ⟨.noTable, by simp [errorOf, htv], h1⟩
    · exact .inr (.inl ⟨by simp [errorOf, htv], rfl, by simp, _, h1⟩)
    · exact absurd h1 (gfPow_ne_divByZero _ _ _)
  | inv a =>
    obtain ⟨htv, h1⟩ | ⟨htv, v, h0, h1⟩ | ⟨htv, h0, h1⟩ := needTables_answer_next h
    · exact .inl ⟨.noTable, by simp [errorOf, htv], h1⟩
    · have h2 : ¬ (a = 0) := by
        intro ha
        have := (gfDiv_eq_divByZero s.tables 1 a).2 ⟨by decide, ha⟩
        rw [gfInv, this] at h0; simp at h0
      exact .inr (.inl ⟨by simp only [errorOf, htv, if_true, if_neg h2], rfl, by simp, _, h1⟩)
    · rw [gfInv, gfDiv_eq_divByZero] at h0
      exact .inl ⟨.div0, by simp only [errorOf, htv, if_true, if_pos h0.2], h1⟩
  | rdexp e =>
    simp only [exec, execRdexp] at h
    obtain ⟨htv, h1⟩ | ⟨htv, h1⟩ := needTables_eq s
      (if h : e.toNat < 255 then .next (respond (zext16 s.tables.exp[e.toNat]) s) else .next (raise .index s))
    · rw [h1] at h
      split at h
      · rename_i he
        have h2 : ¬ e = 255 := by rintro rfl; simp at he
        exact .inr (.inl ⟨by simp only [errorOf, htv, if_true, if_neg h2], rfl, by simp, _, by simpa using h.symm⟩)
      · rename_i he
        have h2 : e = 255 := by apply BitVec.eq_of_toNat_eq; have := e.isLt; simp; omega
        exact .inl ⟨.index, by simp only [errorOf, htv, if_true, if_pos h2], by simpa using h.symm⟩
    · rw [h1] at h
      exact .inl ⟨.noTable, by simp [errorOf, htv], by simpa using h.symm⟩
  | rdlog a =>
    simp only [exec, execRdlog] at h
    obtain ⟨htv, h1⟩ | ⟨htv, h1⟩ := needTables_eq s (.next (respond (logEntry s.tables a) s))
    · rw [h1] at h
      exact .inr (.inl ⟨by simp [errorOf, htv], rfl, by simp, _, by simpa using h.symm⟩)
    · rw [h1] at h
      exact .inl ⟨.noTable, by simp [errorOf, htv], by simpa using h.symm⟩
  | rdsts => exact .inr (.inl ⟨rfl, rfl, by simp, _, by simpa [exec, execRdsts] using h.symm⟩)

/-- What a word can do: a legal word what its command does, every other word the raising of `E_ILLEGAL`. -/
theorem runWord_next {w : Word} (h : runWord w s = .next t) :
    (∃ i, decode w = .ok i ∧ exec i s = .next t) ∨ (∃ x, decode w = .error x ∧ t = raise .illegal s) := by
  cases hd : decode w with
  | ok i => rw [runWord_ok hd] at h; exact .inl ⟨i, rfl, h⟩
  | error x => rw [runWord_error hd] at h; exact .inr ⟨x, rfl, by simpa using h.symm⟩

end Sys2Proof.Machine
end

