-- ==== Sys2Proof/Laws/PerInstr.lean ====
section
/-! SUPPORT. A statement about every instruction as syntax, one lemma per constructor: its word matches the row of the
opcode table that bears its mnemonic (R51). -/

namespace Sys2Proof.Laws.EncodesItsRow

/-- The word of `i` matches the row of the opcode table with the mnemonic of `i`. -/
def Statement (i : Instr) : Prop :=
  ∃ r ∈ opcodeTable, r.mnemonic = i.line.mnemonic ∧ r.covers (encode i) = true

/-- An F1 word matches a row with the mask of F1 and its opcode. -/
theorem covers_f1 {m : Mnemonic} {opc : Byte} {pat : Word} (a : Byte) (h : byteAt opc 24 = pat) :
    Row.covers ⟨m, 0xFF00FFFF, pat⟩ (wordF1 opc a) = true := by
  simp [Row.covers, wordF1_masked, h]

/-- An F2 word matches a row with the mask of F2 and its opcode. -/
theorem covers_f2 {m : Mnemonic} {opc : Byte} {pat : Word} (a b : Byte) (h : byteAt opc 24 = pat) :
    Row.covers ⟨m, 0xFF0000FF, pat⟩ (wordF2 opc a b) = true := by
  simp [Row.covers, wordF2_masked, h]

/-- An FN word matches a row with the mask of FN and its opcode. -/
theorem covers_fn {m : Mnemonic} {opc : Byte} {pat : Word} (a : Byte) (n : Half) (h : byteAt opc 24 = pat) :
    Row.covers ⟨m, 0xFF000000, pat⟩ (wordFN opc a n) = true := by
  simp [Row.covers, wordFN_masked, h]

theorem build (p : Byte) : Statement (.build p) :=
  ⟨⟨.build, 0xFF00FFFF, 0x01000000⟩, by decide, rfl, covers_f1 p (by decide)⟩

theorem scan : Statement .scan := ⟨⟨.scan, 0xFFFFFFFF, 0x02000000⟩, by decide, rfl, by decide⟩

theorem add (a b : Byte) : Statement (.add a b) :=
  ⟨⟨.add, 0xFF0000FF, 0x10000000⟩, by decide, rfl, covers_f2 a b (by decide)⟩

theorem sub (a b : Byte) : Statement (.sub a b) :=
  ⟨⟨.sub, 0xFF0000FF, 0x11000000⟩, by decide, rfl, covers_f2 a b (by decide)⟩

theorem mul (a b : Byte) : Statement (.mul a b) :=
  ⟨⟨.mul, 0xFF0000FF, 0x12000000⟩, by decide, rfl, covers_f2 a b (by decide)⟩

theorem div (a b : Byte) : Statement (.div a b) :=
  ⟨⟨.div, 0xFF0000FF, 0x13000000⟩, by decide, rfl, covers_f2 a b (by decide)⟩

theorem pow (a : Byte) (n : Half) : Statement (.pow a n) :=
  ⟨⟨.pow, 0xFF000000, 0x14000000⟩, by decide, rfl, covers_fn a n (by decide)⟩

theorem inv (a : Byte) : Statement (.inv a) :=
  ⟨⟨.inv, 0xFF00FFFF, 0x15000000⟩, by decide, rfl, covers_f1 a (by decide)⟩

theorem rdexp (e : Byte) : Statement (.rdexp e) :=
  ⟨⟨.rdexp, 0xFF00FFFF, 0x20000000⟩, by decide, rfl, covers_f1 e (by decide)⟩

theorem rdlog (a : Byte) : Statement (.rdlog a) :=
  ⟨⟨.rdlog, 0xFF00FFFF, 0x21000000⟩, by decide, rfl, covers_f1 a (by decide)⟩

theorem rdsts : Statement .rdsts := ⟨⟨.rdsts, 0xFFFFFFFF, 0x22000000⟩, by decide, rfl, by decide⟩

end Sys2Proof.Laws.EncodesItsRow
end

