-- ==== Sys2Proof/Laws/Scratch.lean ====
section
/-! SUPPORT. The scratch logarithm table read and written slot by slot, so that no proof unfolds its packing. -/

namespace Sys2Proof.Machine

/-- The weight of a slot as a power of two. -/
theorem slotWeight (i : Nat) : 65536 ^ i = 2 ^ (16 * i) := by
  rw [Nat.pow_mul]

/-- Bit `k` of slot `i`. -/
theorem slot_getLsbD (L : ScratchLog) (i k : Nat) :
    (slot L i).getLsbD k = (decide (k < 16) && L.testBit (16 * i + k)) := by
  rw [slot, BitVec.getLsbD_ofNat, slotWeight, Nat.testBit_div_two_pow, Nat.add_comm]

/-- A bit of the scratch after a write. -/
theorem setSlot_testBit (L : ScratchLog) (i : Nat) (v : Half) (j : Nat) :
    (setSlot L i v).testBit j =
      if 16 * i ≤ j ∧ j < 16 * i + 16 then v.getLsbD (j - 16 * i) else L.testBit j := by
  rw [setSlot, slotWeight, Nat.testBit_xor, Nat.testBit_mul_two_pow, BitVec.testBit_toNat, BitVec.getLsbD_xor,
    slot_getLsbD]
  by_cases h : 16 * i ≤ j ∧ j < 16 * i + 16
  · have h1 : j - 16 * i < 16 := by omega
    have h2 : 16 * i + (j - 16 * i) = j := by omega
    simp [h, h1, h2]
  · by_cases h3 : 16 * i ≤ j
    · have h1 : ¬ (j - 16 * i < 16) := by omega
      have h4 : v.getLsbD (j - 16 * i) = false := BitVec.getLsbD_of_ge _ _ (by omega)
      simp [h, h1, h4]
    · simp [h3]

/-- Reading the slot just written gives what was written. -/
theorem slot_setSlot_same (L : ScratchLog) (i : Nat) (v : Half) : slot (setSlot L i v) i = v := by
  apply BitVec.eq_of_getLsbD_eq
  intro k hk
  rw [slot_getLsbD, setSlot_testBit]
  simp [hk]

/-- A write leaves every other slot alone. -/
theorem slot_setSlot_other (L : ScratchLog) {i j : Nat} (v : Half) (h : i ≠ j) :
    slot (setSlot L i v) j = slot L j := by
  apply BitVec.eq_of_getLsbD_eq
  intro k hk
  rw [slot_getLsbD, slot_getLsbD, setSlot_testBit]
  have : ¬ (16 * i ≤ 16 * j + k ∧ 16 * j + k < 16 * i + 16) := by omega
  simp [this]

/-- Every slot of an empty scratch is the sentinel (R67). -/
theorem slot_emptyScratch {i : Nat} (hi : i < 256) : slot emptyScratch i = sentinel := by
  apply BitVec.eq_of_getLsbD_eq
  intro k hk
  rw [slot_getLsbD, emptyScratch, slotWeight, Nat.testBit_two_pow_sub_one, sentinel,
    show (0xFFFF : Half) = BitVec.allOnes 16 by decide, BitVec.getLsbD_allOnes]
  have : 16 * i + k < 16 * 256 := by omega
  simp [hk]; omega

/-- The committed table holds the slots (R72). -/
@[simp] theorem scratchTable_getElem (L : ScratchLog) (i : Nat) (h : i < 256) : (scratchTable L)[i] = slot L i := by
  simp [scratchTable]

/-- The loop on a nonempty list of entries goes on exactly where the slot is still unset (R67). -/
theorem fillLog_cons_some {v : Byte} {rest : List Byte} {e : Nat} {L M : ScratchLog}
    (h : fillLog (v :: rest) e L = some M) :
    slot L v.toNat = sentinel ∧ fillLog rest (e + 1) (setSlot L v.toNat (BitVec.ofNat 16 e)) = some M := by
  unfold fillLog at h
  split at h
  · rename_i hs; exact ⟨hs, h⟩
  · simp at h

end Sys2Proof.Machine
end

