-- ==== Sys2Proof/Machine/Assembler.lean ====
section
/-! DEFINITION. The assembler of R58 on text: "a command as its mnemonic in capitals followed by its operands, separated by
commas, in the order `A`, then `B` or `N`. An operand is a number in hexadecimal with a `0x` prefix or in decimal." Text is a
list of characters. Blanks around an operand are skipped. -/

namespace Sys2Proof.Machine

/-- A mnemonic in capitals (R47). -/
def readMnemonic (m : List Char) : Option Mnemonic :=
  if m = ['B', 'U', 'I', 'L', 'D'] then some .build
  else if m = ['S', 'C', 'A', 'N'] then some .scan
  else if m = ['A', 'D', 'D'] then some .add
  else if m = ['S', 'U', 'B'] then some .sub
  else if m = ['M', 'U', 'L'] then some .mul
  else if m = ['D', 'I', 'V'] then some .div
  else if m = ['P', 'O', 'W'] then some .pow
  else if m = ['I', 'N', 'V'] then some .inv
  else if m = ['R', 'D', 'E', 'X', 'P'] then some .rdexp
  else if m = ['R', 'D', 'L', 'O', 'G'] then some .rdlog
  else if m = ['R', 'D', 'S', 'T', 'S'] then some .rdsts
  else none

/-- The value of a digit, hexadecimal digits in either case. -/
def digitValue (c : Char) : Option Nat :=
  let n := c.toNat
  if 48 ≤ n ∧ n ≤ 57 then some (n - 48)
  else if 65 ≤ n ∧ n ≤ 70 then some (n - 55)
  else if 97 ≤ n ∧ n ≤ 102 then some (n - 87)
  else none

/-- The digits of a number in a base, most significant first, after the value `acc` of those already read. -/
def readDigits (base : Nat) : List Char → Nat → Option Nat
  | [], acc => some acc
  | c :: cs, acc =>
    match digitValue c with
    | some d => if d < base then readDigits base cs (acc * base + d) else none
    | none => none

/-- A number without a sign: hexadecimal after `0x`, else decimal. -/
def readNumber : List Char → Option Nat
  | [] => none
  | ['0', 'x'] => none
  | '0' :: 'x' :: ds => readDigits 16 ds 0
  | ds => readDigits 10 ds 0

/-- An operand: a number, or a negative one, which no field takes. -/
def readOperand : List Char → Option Int
  | '-' :: ds => (readNumber ds).map (fun n => -(n : Int))
  | ds => (readNumber ds).map (fun n => (n : Int))

/-- Leading blanks skipped. -/
def skipBlanks : List Char → List Char
  | ' ' :: cs => skipBlanks cs
  | cs => cs

/-- Blanks on both sides skipped. -/
def trimBlanks (cs : List Char) : List Char := (skipBlanks (skipBlanks cs).reverse).reverse

/-- The pieces of a text between occurrences of a character; `piece` is the piece being read, reversed. -/
def splitOn (sep : Char) : List Char → List Char → List (List Char)
  | [], piece => [piece.reverse]
  | c :: cs, piece => if c = sep then piece.reverse :: splitOn sep cs [] else splitOn sep cs (c :: piece)

/-- Every operand of a list of pieces, or none if one is no number. -/
def readOperands : List (List Char) → Option (List Int)
  | [] => some []
  | p :: ps =>
    match readOperand (trimBlanks p), readOperands ps with
    | some v, some vs => some (v :: vs)
    | _, _ => none

/-- The mnemonic is what stands before the first blank; the operands are the rest, split at the commas. -/
def readLine (cs : List Char) : Option Line :=
  let text := trimBlanks cs
  let name := text.takeWhile (fun c => c != ' ')
  let rest := skipBlanks (text.dropWhile (fun c => c != ' '))
  match readMnemonic name, (if rest = [] then some [] else readOperands (splitOn ',' rest [])) with
  | some m, some vs => some ⟨m, vs⟩
  | _, _ => none

/-- The word of a written command; `none` is an error of the assembler (R58). -/
def assembleText (cs : List Char) : Option Word := ((readLine cs).bind assembleLine).map encode

end Sys2Proof.Machine
end

