-- ==== Sys2Proof/Tests/Slice0.lean ====
section
/-! SUPPORT. The model's own tests: well-formedness, decoding of words written out from R46 and R47, one step of each command
with results from 95_test_vectors.md, and for every statement with hypotheses a witness that meets them
(`test_witness_<statement>`). -/

namespace Sys2Proof.Tests

open Sys2Proof.Machine

/-! ### Helpers -/

/-- The host presents one word. -/
def withWord (w : Word) (s : State) : State := { s with inputs := [.command w] }

/-- A state with the exponent table of 0x1D, a given logarithm table, and no beat. -/
def stateWithLog (L : LogTable) : State :=
  { State.reset with tables := ⟨buildExponentTable 0x1D, L⟩, poly := 0x1D, tv := true }

/-- The state that BUILD 0x1D leaves after reset, no beat kept. -/
def builtState : State := stateWithLog ((buildLogarithmTable (buildExponentTable 0x1D)).getD resetLog)

/-- The response words of the step that executes one word, an error beat's word cut to its high half, which R55 fixes. -/
def answers (w : Word) (s : State) : List Nat :=
  match step (withWord w s) with
  | .next t => t.responses.map (fun b =>
      if b.status.isError then b.status.code.toNat * 256 else b.status.code.toNat * 2 ^ 24 + b.data.toNat)
  | .fault _ => []
  | .refused _ => []

/-- A field of the state after the step that executes one word. -/
def after (w : Word) (s : State) (f : State → Nat) : Option Nat :=
  match step (withWord w s) with
  | .next t => some (f t)
  | .fault _ => none
  | .refused _ => none

/-! ### Well-formedness: an ill-formed line for each check (R46, R58) -/

theorem test_wf_too_few_operands : (Line.mk .add [1]).wellFormed = false := by decide
theorem test_wf_too_many_operands : (Line.mk .scan [0]).wellFormed = false := by decide
theorem test_wf_byte_above : (Line.mk .build [256]).wellFormed = false := by decide
theorem test_wf_byte_negative : (Line.mk .inv [-1]).wellFormed = false := by decide
theorem test_wf_second_byte_above : (Line.mk .mul [3, 256]).wellFormed = false := by decide
theorem test_wf_power_above : (Line.mk .pow [2, 65536]).wellFormed = false := by decide
theorem test_wf_power_negative : (Line.mk .pow [2, -1]).wellFormed = false := by decide
theorem test_wf_greatest_operands : (Line.mk .pow [255, 65535]).wellFormed = true := by decide

/-! ### The assembler on text (R58's examples) -/

theorem test_text_add :
    assembleText ['A', 'D', 'D', ' ', '0', 'x', '5', '3', ',', ' ', '0', 'x', 'C', 'A'] = some 0x1053CA00 := by decide
theorem test_text_pow :
    assembleText ['P', 'O', 'W', ' ', '0', 'x', '0', '2', ',', ' ', '8'] = some 0x14020008 := by decide
theorem test_text_rdsts : assembleText ['R', 'D', 'S', 'T', 'S'] = some 0x22000000 := by decide
theorem test_text_operand_too_large :
    assembleText ['R', 'D', 'E', 'X', 'P', ' ', '2', '5', '6'] = none := by decide

/-! ### Decoding: words written out bit by bit from R46 and R47 -/

theorem test_decode_build : decode 0b00000001000111010000000000000000#32 = .ok (.build 0x1D) := by decide
theorem test_decode_scan : decode 0b00000010000000000000000000000000#32 = .ok .scan := by decide
theorem test_decode_add : decode 0b00010000010100111100101000000000#32 = .ok (.add 0x53 0xCA) := by decide
theorem test_decode_sub : decode 0b00010001000000000000011100000000#32 = .ok (.sub 0x00 0x07) := by decide
theorem test_decode_mul : decode 0b00010010000000110000011100000000#32 = .ok (.mul 0x03 0x07) := by decide
theorem test_decode_div : decode 0b00010011000010010000001100000000#32 = .ok (.div 0x09 0x03) := by decide
theorem test_decode_pow : decode 0b00010100000000100000000100000000#32 = .ok (.pow 0x02 256) := by decide
theorem test_decode_inv : decode 0b00010101010100110000000000000000#32 = .ok (.inv 0x53) := by decide
theorem test_decode_rdexp : decode 0b00100000111111110000000000000000#32 = .ok (.rdexp 255) := by decide
theorem test_decode_rdlog : decode 0b00100001000000100000000000000000#32 = .ok (.rdlog 0x02) := by decide
theorem test_decode_rdsts : decode 0b00100010000000000000000000000000#32 = .ok .rdsts := by decide

/-- 95_test_vectors.md section 3.8: reserved bits. -/
theorem test_decode_reserved_bits :
    decode 0x12030701 = .error (.reservedBitsSet 0x12) ∧ decode 0x011D0100 = .error (.reservedBitsSet 0x01) ∧
    decode 0x22800000 = .error (.reservedBitsSet 0x22) ∧ decode 0x02000001 = .error (.reservedBitsSet 0x02) := by decide

/-- 95_test_vectors.md section 3.8: unassigned opcodes. -/
theorem test_decode_unassigned :
    decode 0x00000000 = .error (.unassignedOpcode 0x00) ∧ decode 0xFFFFFFFF = .error (.unassignedOpcode 0xFF) ∧
    decode 0x16000000 = .error (.unassignedOpcode 0x16) := by decide

/-! ### The tables of polynomial 0x1D (95_test_vectors.md section 2.1) -/

/-- The `EXP` table as section 2.1 prints it. -/
def printedExp : List Nat :=
  [0x01, 0x02, 0x04, 0x08, 0x10, 0x20, 0x40, 0x80, 0x1D, 0x3A, 0x74, 0xE8, 0xCD, 0x87, 0x13, 0x26] ++
  [0x4C, 0x98, 0x2D, 0x5A, 0xB4, 0x75, 0xEA, 0xC9, 0x8F, 0x03, 0x06, 0x0C, 0x18, 0x30, 0x60, 0xC0] ++
  [0x9D, 0x27, 0x4E, 0x9C, 0x25, 0x4A, 0x94, 0x35, 0x6A, 0xD4, 0xB5, 0x77, 0xEE, 0xC1, 0x9F, 0x23] ++
  [0x46, 0x8C, 0x05, 0x0A, 0x14, 0x28, 0x50, 0xA0, 0x5D, 0xBA, 0x69, 0xD2, 0xB9, 0x6F, 0xDE, 0xA1] ++
  [0x5F, 0xBE, 0x61, 0xC2, 0x99, 0x2F, 0x5E, 0xBC, 0x65, 0xCA, 0x89, 0x0F, 0x1E, 0x3C, 0x78, 0xF0] ++
  [0xFD, 0xE7, 0xD3, 0xBB, 0x6B, 0xD6, 0xB1, 0x7F, 0xFE, 0xE1, 0xDF, 0xA3, 0x5B, 0xB6, 0x71, 0xE2] ++
  [0xD9, 0xAF, 0x43, 0x86, 0x11, 0x22, 0x44, 0x88, 0x0D, 0x1A, 0x34, 0x68, 0xD0, 0xBD, 0x67, 0xCE] ++
  [0x81, 0x1F, 0x3E, 0x7C, 0xF8, 0xED, 0xC7, 0x93, 0x3B, 0x76, 0xEC, 0xC5, 0x97, 0x33, 0x66, 0xCC] ++
  [0x85, 0x17, 0x2E, 0x5C, 0xB8, 0x6D, 0xDA, 0xA9, 0x4F, 0x9E, 0x21, 0x42, 0x84, 0x15, 0x2A, 0x54] ++
  [0xA8, 0x4D, 0x9A, 0x29, 0x52, 0xA4, 0x55, 0xAA, 0x49, 0x92, 0x39, 0x72, 0xE4, 0xD5, 0xB7, 0x73] ++
  [0xE6, 0xD1, 0xBF, 0x63, 0xC6, 0x91, 0x3F, 0x7E, 0xFC, 0xE5, 0xD7, 0xB3, 0x7B, 0xF6, 0xF1, 0xFF] ++
  [0xE3, 0xDB, 0xAB, 0x4B, 0x96, 0x31, 0x62, 0xC4, 0x95, 0x37, 0x6E, 0xDC, 0xA5, 0x57, 0xAE, 0x41] ++
  [0x82, 0x19, 0x32, 0x64, 0xC8, 0x8D, 0x07, 0x0E, 0x1C, 0x38, 0x70, 0xE0, 0xDD, 0xA7, 0x53, 0xA6] ++
  [0x51, 0xA2, 0x59, 0xB2, 0x79, 0xF2, 0xF9, 0xEF, 0xC3, 0x9B, 0x2B, 0x56, 0xAC, 0x45, 0x8A, 0x09] ++
  [0x12, 0x24, 0x48, 0x90, 0x3D, 0x7A, 0xF4, 0xF5, 0xF7, 0xF3, 0xFB, 0xEB, 0xCB, 0x8B, 0x0B, 0x16] ++
  [0x2C, 0x58, 0xB0, 0x7D, 0xFA, 0xE9, 0xCF, 0x83, 0x1B, 0x36, 0x6C, 0xD8, 0xAD, 0x47, 0x8E]

/-- The `LOG` table as section 2.1 prints it. -/
def printedLog : List Int :=
  [-1, 0, 1, 25, 2, 50, 26, 198, 3, 223, 51, 238, 27, 104, 199, 75] ++
  [4, 100, 224, 14, 52, 141, 239, 129, 28, 193, 105, 248, 200, 8, 76, 113] ++
  [5, 138, 101, 47, 225, 36, 15, 33, 53, 147, 142, 218, 240, 18, 130, 69] ++
  [29, 181, 194, 125, 106, 39, 249, 185, 201, 154, 9, 120, 77, 228, 114, 166] ++
  [6, 191, 139, 98, 102, 221, 48, 253, 226, 152, 37, 179, 16, 145, 34, 136] ++
  [54, 208, 148, 206, 143, 150, 219, 189, 241, 210, 19, 92, 131, 56, 70, 64] ++
  [30, 66, 182, 163, 195, 72, 126, 110, 107, 58, 40, 84, 250, 133, 186, 61] ++
  [202, 94, 155, 159, 10, 21, 121, 43, 78, 212, 229, 172, 115, 243, 167, 87] ++
  [7, 112, 192, 247, 140, 128, 99, 13, 103, 74, 222, 237, 49, 197, 254, 24] ++
  [227, 165, 153, 119, 38, 184, 180, 124, 17, 68, 146, 217, 35, 32, 137, 46] ++
  [55, 63, 209, 91, 149, 188, 207, 205, 144, 135, 151, 178, 220, 252, 190, 97] ++
  [242, 86, 211, 171, 20, 42, 93, 158, 132, 60, 57, 83, 71, 109, 65, 162] ++
  [31, 45, 67, 216, 183, 123, 164, 118, 196, 23, 73, 236, 127, 12, 111, 246] ++
  [108, 161, 59, 82, 41, 157, 85, 170, 251, 96, 134, 177, 187, 204, 62, 90] ++
  [203, 89, 95, 176, 156, 169, 160, 81, 11, 245, 22, 235, 122, 117, 44, 215] ++
  [79, 174, 213, 233, 230, 231, 173, 232, 116, 214, 244, 234, 168, 80, 88, 175]

theorem test_exponent_table : (buildExponentTable 0x1D).toList.map BitVec.toNat = printedExp := by decide +kernel

theorem test_logarithm_table :
    (buildLogarithmTable (buildExponentTable 0x1D)).map (fun L => L.toList.map BitVec.toInt) = some printedLog := by
  decide +kernel

/-- Section 2.2: 0x00, 0x01 and 0x1B are rejected at exponents 9, 8 and 51, and not before. -/
theorem test_duplicate_exponents :
    [(0x00, 9), (0x01, 8), (0x1B, 51)].all (fun x : Byte × Nat =>
      let T := (buildExponentTable x.1).toList
      (fillLog (T.take x.2) 0 emptyScratch).isSome && (fillLog (T.take (x.2 + 1)) 0 emptyScratch).isNone) = true := by
  decide +kernel

/-! ### One step of each command (95_test_vectors.md section 3) -/

theorem test_build_commits :
    after 0x011D0000 State.reset (fun t => t.poly.toNat * 256 + (statusByte t).toNat) = some 0x1D01 := by decide +kernel
theorem test_build_bad_polynomial : answers 0x011B0000 State.reset = [0x8300] := by decide +kernel
theorem test_scan_needs_no_tables : after 0x02000000 State.reset (fun t => (statusByte t).toNat) = some 0 := by decide
theorem test_add : answers 0x1053CA00 State.reset = [0x99] := by decide
theorem test_sub : answers 0x11000700 State.reset = [0x07] := by decide
theorem test_mul_reduces_greatest_sum : answers 0x128E8E00 builtState = [0x47] := by decide +kernel
theorem test_mul_without_tables : answers 0x12000700 State.reset = [0x8100] := by decide
theorem test_div_negative_difference : answers 0x13030700 builtState = [0xD3] := by decide +kernel
theorem test_div_zero_by_zero : answers 0x13000000 builtState = [0x00] := by decide +kernel
theorem test_pow_reduces : answers 0x14FF0002 builtState = [0xE2] := by decide +kernel
theorem test_pow_zero_to_zero : answers 0x14000000 builtState = [0x01] := by decide +kernel
theorem test_inv : answers 0x15530000 builtState = [0x8C] := by decide +kernel
theorem test_inv_of_zero : answers 0x15000000 builtState = [0x8200] := by decide +kernel
theorem test_rdexp_last : answers 0x20FE0000 builtState = [0x8E] := by decide +kernel
theorem test_rdexp_past_the_end : answers 0x20FF0000 builtState = [0x8500] := by decide +kernel
theorem test_rdlog_sentinel : answers 0x21000000 builtState = [0xFFFF] := by decide +kernel
theorem test_rdlog : answers 0x21030000 builtState = [0x0019] := by decide +kernel
theorem test_rdsts : answers 0x22000000 builtState = [0x1D01] := by decide +kernel
theorem test_rdsts_shows_error : answers 0x22000000 { builtState with se := true } = [0x1D03] := by decide +kernel
theorem test_illegal_word : answers 0x13050001 builtState = [0x8000] := by decide +kernel
theorem test_build_twice : answers 0x012B0000 builtState = [0x8400] := by decide +kernel

/-- R137: a SCAN cut short after no beat answers none, and a BUILD cut short leaves `TV` = 0. -/
theorem test_reset_during_build :
    (match step { builtState with inputs := [.resetDuring 0x22000000 0] } with
      | .next t => (t.responses.length, t.tv)
      | .fault _ => (9, true)
      | .refused _ => (9, true)) = (0, false) := by decide +kernel

/-! ### The host's two readings of the table -/

theorem test_decodeTableWord : decodeTableWord 32 0x14FFFFFF = some (.pow 0xFF 65535) := by decide
theorem test_withFetchWord : step (State.reset.withFetchWord 32 0x22000000) = exec .rdsts State.reset := rfl

/-! ### Witnesses: for every statement with hypotheses, states and operands that meet them -/

/-- A value that is there is what `getD` gives. -/
theorem some_getD_of_isSome {α : Type} {o : Option α} {d : α} (h : o.isSome = true) : o = some (o.getD d) := by
  cases o <;> simp_all

/-- A state whose logarithm table is the one built from 0x1D meets the invariant with its tables valid. -/
theorem stateWithLog_ready {L : LogTable} (h : buildLogarithmTable (buildExponentTable 0x1D) = some L) :
    Ready (stateWithLog L) := by
  refine ⟨⟨fun _ => ⟨?_, rfl, h⟩, fun hf => ?_⟩, rfl⟩
  · show (buildLogarithmTable (buildExponentTable 0x1D)).isSome = true
    rw [h]; rfl
  · simp [stateWithLog] at hf

/-- The built state meets the invariant with its tables valid. -/
theorem test_built_ready : Ready builtState :=
  stateWithLog_ready (some_getD_of_isSome (by decide +kernel))

/-- The state after reset meets the invariant (it has no tables). -/
theorem test_reset_inv : Inv State.reset := by
  refine ⟨fun h => ?_, fun _ => rfl⟩
  simp [State.reset] at h

/-- Polynomial 0x1D builds a logarithm table, and does so from every state with `TV` = 0. -/
theorem test_standard_builds :
    ∃ L, buildLogarithmTable (buildExponentTable 0x1D) = some L ∧
      ∀ s : State, s.tv = false →
        exec (.build 0x1D) s = .next (respond 0 (commitTables 0x1D (buildExponentTable 0x1D) L s)) := by
  have h : (buildLogarithmTable (buildExponentTable 0x1D)).isSome = true := by decide +kernel
  obtain ⟨L, hL⟩ := Option.isSome_iff_exists.1 h
  refine ⟨L, hL, fun s hs => ?_⟩
  simp only [exec, execBuild, hs, hL, Bool.false_eq_true, if_false]

theorem test_witness_EncodeOfDecodeIsTheWord : decode 0x14FFFFFF = .ok (.pow 0xFF 65535) := by decide

theorem test_witness_IllegalWordsRaiseIllegal :
    fieldOpc 0x03000000 ∉ ([0x01, 0x02, 0x10, 0x11, 0x12, 0x13, 0x14, 0x15, 0x20, 0x21, 0x22] : List Byte) ∧
    (withWord 0x13050001 State.reset).inputs = .command 0x13050001 :: [] ∧
    (∀ r ∈ opcodeTable, 0x13050001 &&& r.mask ≠ r.pattern) := ⟨by decide, rfl, by decide⟩

theorem test_witness_DecoderFindsTheOneMatchingRow :
    ∃ r ∈ opcodeTable, 0x22000000 &&& r.mask = r.pattern ∧ fieldOpc r.pattern = 0x22 := by decide

theorem test_witness_OperandsAreTheFieldsOfTheWord : decode 0x13090300 = .ok (.div 0x09 0x03) := by decide

theorem test_witness_AssemblerLinesAreTheCommands :
    assembleLine ⟨.pow, [255, 65535]⟩ = some (.pow 255 65535) ∧ (Line.mk .pow [255, 65536]).wellFormed = false := by
  decide

theorem test_witness_StepRunsTheDecodedCommand :
    (withWord 0x1053CA00 State.reset).inputs = .command 0x1053CA00 :: [] ∧ decode 0x1053CA00 = .ok (.add 0x53 0xCA) :=
  ⟨rfl, by decide⟩

theorem test_witness_IdleBlockStaysAsItIs : State.reset.inputs = [] := rfl

theorem test_witness_ResetGivesTheResetState :
    ({ builtState with inputs := [.reset] } : State).inputs = .reset :: [] := rfl

theorem test_witness_OnlyResetClearsStatus :
    ∃ t, step { builtState with inputs := [.reset], se := true } = .next t ∧
      (builtState.tv = true ∧ t.tv = false) ∧ t.se = false ∧ t.poly ≠ builtState.poly :=
  ⟨resetBlock { builtState with se := true }, rfl, ⟨rfl, rfl⟩, rfl, by decide⟩

theorem test_witness_ResetDuringACommandAbandonsIt :
    ({ builtState with inputs := [.resetDuring 0x12000001 0] } : State).inputs = .resetDuring 0x12000001 0 :: [] ∧
    step { builtState with inputs := [.command 0x12000001] } = .next (raise .illegal builtState) := ⟨rfl, rfl⟩

theorem test_witness_StepTakesTheInputsInOrder :
    step (withWord 0 State.reset) = .next (raise .illegal State.reset) := rfl

/-- Both sides of bit 7. -/
theorem test_witness_DoubleShiftsAndReduces : (0x7F#8).toNat < 128 ∧ 128 ≤ (0x80#8).toNat := by decide

theorem test_witness_ExponentTableIsBuiltByDoubling : 253 + 1 < 255 ∧ 0 + 1 < 255 ∧ 7 < 8 := by decide

/-- A table with a repeated entry, and one without. -/
theorem test_witness_LogarithmTableInvertsOrFails :
    ((0 : Fin 255) < 254 ∧ (Vector.replicate 255 0#8)[0] = (Vector.replicate 255 0#8)[254]) ∧
    (∀ e f : Fin 255, e < f →
      (Vector.ofFn (fun i : Fin 255 => BitVec.ofNat 8 i.val))[e.val] ≠
        (Vector.ofFn (fun i : Fin 255 => BitVec.ofNat 8 i.val))[f.val]) := by
  refine ⟨⟨by decide, by simp⟩, fun e f hef h => ?_⟩
  have h1 : (BitVec.ofNat 8 e.val).toNat = (BitVec.ofNat 8 f.val).toNat := by simpa using congrArg BitVec.toNat h
  have := e.isLt; have := f.isLt; have : e.val < f.val := hef
  simp at h1
  omega

theorem test_witness_GateDecidesTheFullCycle :
    (∃ L, buildLogarithmTable (buildExponentTable 0x1D) = some L) ∧ (0xFF : Byte) ≠ 0 :=
  ⟨test_standard_builds.imp fun _ h => h.1, by decide⟩

theorem test_witness_ZeroAppearsOnlyUnderPolynomialZero : (buildExponentTable 0x00)[254] = 0x00 := by decide +kernel

/-- The smallest and the greatest valid value, and an even one. -/
theorem test_witness_ExactlySixteenPolynomialsAreValid :
    valid 0x1D = true ∧ valid 0xF5 = true ∧ (0xFE#8).toNat % 2 = 0 := by decide +kernel

theorem test_witness_ValidExactlyWhenXHasOrder255 : valid 0x1D = true ∧ 0 < 1 ∧ 254 < 255 := by decide +kernel

/-- Each clause of BUILD: `TV` = 1; `TV` = 0 and not valid; `TV` = 0 and valid. -/
theorem test_witness_BuildCommitsOrRaises :
    builtState.tv = true ∧ State.reset.tv = false ∧ valid 0x00 = false ∧ valid 0xF5 = true := by decide +kernel

theorem test_witness_StandardAcceptedEarlyRepeatRejected : State.reset.tv = false := rfl

theorem test_witness_EveryStepKeepsTheInvariant :
    Inv (withWord 0 State.reset) ∧ step (withWord 0 State.reset) = .next (raise .illegal State.reset) :=
  ⟨⟨fun h => by simp [withWord, State.reset] at h, fun _ => rfl⟩, rfl⟩

theorem test_witness_CommittedTablesAreInverseBijections :
    Inv builtState ∧ builtState.tv = true ∧ (0xFF : Byte) ≠ 0 := ⟨test_built_ready.1, rfl, by decide⟩

theorem test_witness_GeneratorIsX : Inv builtState ∧ builtState.tv = true := test_built_ready

/-- Each clause of MUL: no tables; a zero operand; two nonzero operands; the polynomial of the examples. -/
theorem test_witness_MulAnswersTheProduct :
    State.reset.tv = false ∧ (builtState.tv = true ∧ ((0 : Byte) = 0 ∨ (0xFF : Byte) = 0)) ∧
    (Ready builtState ∧ (0xFF : Byte) ≠ 0 ∧ (0x01 : Byte) ≠ 0) ∧ builtState.poly = 0x1D :=
  ⟨rfl, ⟨rfl, .inl rfl⟩, ⟨test_built_ready, by decide, by decide⟩, rfl⟩

/-- Each clause of DIV: no tables; a zero dividend; a nonzero dividend over zero; two nonzero operands; the examples. -/
theorem test_witness_DivAnswersTheQuotientOrRaises :
    State.reset.tv = false ∧ (builtState.tv = true ∧ (0 : Byte) = 0) ∧
    (builtState.tv = true ∧ (0x01 : Byte) ≠ 0 ∧ (0 : Byte) = 0) ∧
    (Ready builtState ∧ (0x01 : Byte) ≠ 0 ∧ (0xFF : Byte) ≠ 0) ∧ builtState.poly = 0x1D :=
  ⟨rfl, ⟨rfl, rfl⟩, ⟨rfl, by decide, rfl⟩, ⟨test_built_ready, by decide, by decide⟩, rfl⟩

/-- Each clause of INV: no tables; zero; a nonzero operand; the examples. -/
theorem test_witness_InvAnswersTheInverseOrRaises :
    State.reset.tv = false ∧ (builtState.tv = true ∧ (0 : Byte) = 0) ∧ (Ready builtState ∧ (0x01 : Byte) ≠ 0) ∧
    builtState.poly = 0x1D :=
  ⟨rfl, ⟨rfl, rfl⟩, ⟨test_built_ready, by decide⟩, rfl⟩

/-- Each clause of POW: no tables; power 0; base 0 and a nonzero power; both nonzero; the period at its greatest power. -/
theorem test_witness_PowAnswersThePower :
    State.reset.tv = false ∧ (builtState.tv = true ∧ (0 : Half) = 0) ∧
    (builtState.tv = true ∧ (65535 : Half) ≠ 0 ∧ (0 : Byte) = 0) ∧
    (Ready builtState ∧ (65535 : Half) ≠ 0 ∧ (0xFF : Byte) ≠ 0) ∧
    (((0 : Byte) ≠ 0 ∨ (65280 : Half) ≠ 0) ∧ (65280 : Half).toNat + 255 < 65536) ∧ builtState.poly = 0x1D :=
  ⟨rfl, ⟨rfl, rfl⟩, ⟨rfl, by decide, rfl⟩, ⟨test_built_ready, by decide, by decide⟩, by decide, rfl⟩

theorem test_witness_ExponentArithmeticStaysInRange :
    Ready builtState ∧ (0x8E : Byte) ≠ 0 ∧ (0x01 : Byte) ≠ 0 := ⟨test_built_ready, by decide, by decide⟩

theorem test_witness_TableCommandsNeedTheTables : State.reset.tv = false := rfl

theorem test_witness_FieldOperationsAreClosedAndTotal : Ready builtState := test_built_ready

theorem test_witness_IdentitiesAndInverses : Ready builtState ∧ (0xFF : Byte) ≠ 0 := ⟨test_built_ready, by decide⟩

theorem test_witness_AdditionAndMultiplicationAssociate : Ready builtState := test_built_ready

theorem test_witness_MulIsThePolynomialProduct : Ready builtState := test_built_ready

theorem test_witness_PowIsRepeatedMultiplication : Ready builtState ∧ 65534 + 1 < 65536 := ⟨test_built_ready, by decide⟩

theorem test_witness_MultiplicationTableIsDerived : Ready builtState := test_built_ready

theorem test_witness_MirroredTableGivesTheSameBytes :
    508 ≤ 508 ∧ Ready builtState ∧ (0x8E : Byte) ≠ 0 := ⟨by decide, test_built_ready, by decide⟩

/-- Each clause of RDEXP: no tables; index 255; the greatest index with an entry; the examples. -/
theorem test_witness_RdexpReadsTheExponentTable :
    State.reset.tv = false ∧ (builtState.tv = true ∧ (255 : Byte) = 255) ∧
    (builtState.tv = true ∧ (254 : Byte).toNat < 255) ∧ Ready builtState ∧ builtState.poly = 0x1D :=
  ⟨rfl, ⟨rfl, rfl⟩, ⟨rfl, by decide⟩, test_built_ready, rfl⟩

/-- Each clause of RDLOG: no tables; tables; a nonzero operand; the examples. -/
theorem test_witness_RdlogReadsTheLogarithmTable :
    State.reset.tv = false ∧ builtState.tv = true ∧ (Ready builtState ∧ (0xFF : Byte) ≠ 0) ∧ builtState.poly = 0x1D :=
  ⟨rfl, rfl, ⟨test_built_ready, by decide⟩, rfl⟩

theorem test_witness_RdstsReadsPolyAndStatus :
    (Inv State.reset ∧ State.reset.tv = false) ∧ (Inv builtState ∧ builtState.tv = true) :=
  ⟨⟨test_reset_inv, rfl⟩, test_built_ready⟩

theorem test_witness_ErrorsChangeOnlyTheStickyFlag :
    exec (.rdexp 255) builtState = .next (raise .index builtState) ∧
    (raise .index builtState).responses = builtState.responses ++ [⟨.err .index, Config.errorData 0⟩] ∧
    (⟨.err .index, Config.errorData 0⟩ : Beat) ∈ [(⟨.err .index, Config.errorData 0⟩ : Beat)] :=
  ⟨rfl, rfl, by simp⟩

theorem test_witness_ErrorsAreRaisedExactlyWhenListed :
    errorOf (.build 0x1D) builtState = some .built ∧ errorOf (.div 1 0) builtState = some .div0 ∧
    errorOf (.rdexp 255) State.reset = some .noTable ∧ ∀ i, decode 0x00000000 ≠ .ok i := by
  refine ⟨rfl, rfl, rfl, fun i h => ?_⟩
  rw [show decode 0x00000000 = .error (.unassignedOpcode 0x00) by decide] at h
  simp at h

/-- A word that is no command, SCAN, and another command. -/
theorem test_witness_EveryCommandEndsInOneFinalBeat :
    runWord 0x00000000 State.reset = .next (raise .illegal State.reset) ∧
    (runWord 0x02000000 State.reset = .next (emit (scanBeats validPolynomials) State.reset) ∧
      decode 0x02000000 = .ok .scan) ∧
    (runWord 0x22000000 State.reset = .next (respond (0x00#8 ++ statusByte State.reset) State.reset) ∧
      decode 0x22000000 ≠ .ok .scan) := ⟨rfl, ⟨rfl, by decide⟩, rfl, by decide⟩

/-- An error, an `OK`, and a state whose `SE` is set already. -/
theorem test_witness_StickyErrorRecordsAndAffectsNothing :
    (runWord 0x15000000 builtState = .next (raise .div0 builtState) ∧
      (raise .div0 builtState).responses.getLast? = some ⟨.err .div0, Config.errorData 0⟩) ∧
    (runWord 0x10010200 { builtState with se := true } = .next (respond 0x0003 { builtState with se := true }) ∧
      (respond 0x0003 { builtState with se := true }).responses.getLast? = some ⟨.ok, 0x0003⟩) ∧
    (Instr.add 1 2 ≠ .rdsts ∧ exec (.add 1 2) builtState = .next (respond 0x0003 builtState)) :=
  ⟨⟨rfl, rfl⟩, ⟨rfl, rfl⟩, by decide, rfl⟩

theorem test_witness_OnlyBuildSetsTablesValid :
    ∃ t, step (withWord 0x011D0000 State.reset) = .next t ∧ State.reset.tv = false ∧ t.tv = true := by
  obtain ⟨L, _, h⟩ := test_standard_builds
  exact ⟨_, h State.reset rfl, rfl, rfl⟩

theorem test_witness_BuiltTablesAreImmutable :
    (builtState.tv = true ∧ exec (.build 0x2B) builtState = .next (raise .built builtState)) ∧
    (isBuild .scan = false ∧ exec .scan builtState = .next (emit (scanBeats validPolynomials) builtState)) :=
  ⟨⟨rfl, rfl⟩, rfl, rfl⟩

theorem test_witness_CommandsLeaveTheRestUnchanged :
    (exec (.rdexp 255) builtState = .next (raise .index builtState) ∧ errorOf (.rdexp 255) builtState ≠ none) ∧
    (exec (.add 1 2) builtState = .next (respond 0x0003 builtState) ∧ errorOf (.add 1 2) builtState = none) :=
  ⟨⟨rfl, by decide⟩, rfl, rfl⟩

theorem test_witness_BuiltFieldLastsUntilReset :
    builtState.tv = true ∧ (∀ x ∈ (withWord 0x012B0000 builtState).inputs, ∃ w, x = .command w) ∧
    Host.Core.run Sys2Proof.core 2 (withWord 0x012B0000 builtState) = .next (raise .built builtState) :=
  ⟨rfl, by simp [withWord], rfl⟩

theorem test_witness_NoRunStopsUnderTheInvariant : Inv builtState := test_built_ready.1

theorem test_witness_ResponsesDependOnTheTablesAlone :
    readsOnlyTables (.rdexp 255) = true ∧ ({ builtState with se := true } : State).tables = builtState.tables ∧
    ({ builtState with se := true } : State).tv = builtState.tv ∧
    exec (.rdexp 255) builtState = .next (raise .index builtState) := ⟨rfl, rfl, rfl, rfl⟩

/-- A step that leaves `TV` = 0, and one that sets it. -/
theorem test_witness_UnbuiltTablesAreUnobservable :
    (State.reset.tv = false ∧ step (withWord 0 State.reset) = .next (raise .illegal State.reset)) ∧
    (∃ t, step (withWord 0x011D0000 State.reset) = .next t ∧ t.tv = true) :=
  ⟨⟨rfl, rfl⟩, test_witness_OnlyBuildSetsTablesValid.imp fun _ h => ⟨h.1, h.2.2⟩⟩

end Sys2Proof.Tests
end

/-! # The state, its invariant and its flags (10_state.md)

What a command, a word and a step can do to the tables, `POLY` and `TV`; the invariant; and the statements of
10_state.md about them. -/

namespace Sys2Proof.Machine

variable {s t u : State}

/-! ### The word of a decoded command -/

section decodedWord

variable {w : Word} {i : Instr} {opc : Byte}

/-- A command of format F0 that decodes from `w` is encoded as `w`: the reserved bits are zero (R49). -/
theorem encode_of_decodeF0 {c : Instr} (hc : encode c = byteAt opc 24) (ho : (fieldOpc w).toNat = opc.toNat)
    (h : decodeF0 c w = .ok i) : encode i = w := by
  obtain rfl := BitVec.eq_of_toNat_eq ho
  unfold decodeF0 at h
  split at h
  · rename_i hz
    obtain rfl : c = i := by simpa using h
    have hw := word_eq_wordFN w
    rw [hz.1, hz.2] at hw
    rw [hc]
    exact (hw.trans (by simp [wordFN, byteAt])).symm
  · cases h

/-- A command of format F1 that decodes from `w` is encoded as `w`: the reserved bits are zero (R49). -/
theorem encode_of_decodeF1 {c : Byte → Instr} (hc : ∀ a, encode (c a) = wordF1 opc a)
    (ho : (fieldOpc w).toNat = opc.toNat) (h : decodeF1 c w = .ok i) : encode i = w := by
  obtain rfl := BitVec.eq_of_toNat_eq ho
  unfold decodeF1 at h
  split at h
  · rename_i hz
    obtain rfl : c (fieldA w) = i := by simpa using h
    have hw := word_eq_wordFN w
    rw [hz] at hw
    rw [hc]
    exact (hw.trans (by simp [wordFN, wordF1])).symm
  · cases h

/-- A command of format F2 that decodes from `w` is encoded as `w`: the reserved bits are zero (R49). -/
theorem encode_of_decodeF2 {c : Byte → Byte → Instr} (hc : ∀ a b, encode (c a b) = wordF2 opc a b)
    (ho : (fieldOpc w).toNat = opc.toNat) (h : decodeF2 c w = .ok i) : encode i = w := by
  obtain rfl := BitVec.eq_of_toNat_eq ho
  unfold decodeF2 at h
  split at h
  · rename_i hz
    obtain rfl : c (fieldA w) (fieldB w) = i := by simpa using h
    have hw := word_eq_wordF2 w
    rw [hz] at hw
    rw [hc]
    exact (hw.trans (by simp)).symm
  · cases h

/-- A command of format FN that decodes from `w` is encoded as `w` (R46). -/
theorem encode_of_decodeFN {c : Byte → Half → Instr} (hc : ∀ a n, encode (c a n) = wordFN opc a n)
    (ho : (fieldOpc w).toNat = opc.toNat) (h : decodeFN c w = .ok i) : encode i = w := by
  obtain rfl := BitVec.eq_of_toNat_eq ho
  obtain rfl : c (fieldA w) (fieldN w) = i := by simpa [decodeFN] using h
  rw [hc]
  exact (word_eq_wordFN w).symm

/-- A word decodes to no command but the one it is the word of (R51). -/
theorem encode_of_decode (h : decode w = .ok i) : encode i = w := by
  unfold decode at h
  split at h <;> rename_i ho
  · exact encode_of_decodeF1 (opc := 0x01) (fun _ => rfl) ho h
  · exact encode_of_decodeF0 (opc := 0x02) rfl ho h
  · exact encode_of_decodeF2 (opc := 0x10) (fun _ _ => rfl) ho h
  · exact encode_of_decodeF2 (opc := 0x11) (fun _ _ => rfl) ho h
  · exact encode_of_decodeF2 (opc := 0x12) (fun _ _ => rfl) ho h
  · exact encode_of_decodeF2 (opc := 0x13) (fun _ _ => rfl) ho h
  · exact encode_of_decodeFN (opc := 0x14) (fun _ _ => rfl) ho h
  · exact encode_of_decodeF1 (opc := 0x15) (fun _ => rfl) ho h
  · exact encode_of_decodeF1 (opc := 0x20) (fun _ => rfl) ho h
  · exact encode_of_decodeF1 (opc := 0x21) (fun _ => rfl) ho h
  · exact encode_of_decodeF0 (opc := 0x22) rfl ho h
  · cases h

end decodedWord

/-! ### What an error raises -/

/-- The condition of R117 for an error decides that the command raises it: the converse of the error case of
`exec_cases`. -/
theorem exec_of_errorOf {i : Instr} {e : Err} (h : errorOf i s = some e) : exec i s = .next (raise e s) := by
  cases htv : s.tv with
  | false =>
    cases i with
    | build p =>
      obtain ⟨hp, rfl⟩ : valid p = false ∧ Err.badPoly = e := by simpa [errorOf, htv] using h
      have hb : buildLogarithmTable (buildExponentTable p) = none := by simpa [valid] using hp
      simp [exec, execBuild, htv, hb]
    | scan | add | sub | rdsts => simp [errorOf] at h
    | mul | div | pow | inv | rdexp | rdlog =>
      obtain rfl : Err.noTable = e := by simpa [errorOf, htv] using h
      exact needTables_absent htv _
  | true =>
    cases i with
    | scan | add | sub | rdsts | mul | pow | rdlog => simp [errorOf, htv] at h
    | build p =>
      obtain rfl : Err.built = e := by simpa [errorOf, htv] using h
      simp [exec, execBuild, htv]
    | div a b =>
      obtain ⟨hab, rfl⟩ : (a ≠ 0 ∧ b = 0) ∧ Err.div0 = e := by simpa [errorOf, htv] using h
      simp [exec, execDiv, htv, (gfDiv_eq_divByZero s.tables a b).2 hab, answer]
    | inv a =>
      obtain ⟨ha, rfl⟩ : a = 0 ∧ Err.div0 = e := by simpa [errorOf, htv] using h
      simp [exec, execInv, htv, gfInv, (gfDiv_eq_divByZero s.tables 1#8 a).2 ⟨by decide, ha⟩, answer]
    | rdexp e' =>
      obtain ⟨rfl, rfl⟩ : e' = 255 ∧ Err.index = e := by simpa [errorOf, htv] using h
      simp [exec, execRdexp, htv]

/-- A command raises the error whose condition holds. -/
theorem raises_of_errorOf {i : Instr} {e : Err} (h : errorOf i s = some e) : Raises i s e :=
  ⟨_, exec_of_errorOf h⟩

/-! ### What is written to the tables, `POLY` and `TV` -/

/-- The tables, `POLY` and `TV` of `t` are those of `s`. -/
structure SameField (s t : State) : Prop where
  tables : t.tables = s.tables
  poly : t.poly = s.poly
  tv : t.tv = s.tv

/-- `tb` holds the tables of polynomial `p`: `p` is valid, its logarithm table having been built (R15, R68). -/
structure BuiltFrom (p : Byte) (tb : Tables) : Prop where
  exp : tb.exp = buildExponentTable p
  log : buildLogarithmTable tb.exp = some tb.log

/-- A polynomial that has tables is valid (R68). -/
theorem BuiltFrom.valid {p : Byte} {tb : Tables} (h : BuiltFrom p tb) : valid p = true := by
  simp [Machine.valid, ← h.exp, h.log]

/-- `t` is what a successful BUILD of `p` leaves of `s` (R72). -/
structure Committed (p : Byte) (s t : State) : Prop where
  tv_before : s.tv = false
  tv_after : t.tv = true
  poly : t.poly = p
  built : BuiltFrom p t.tables

/-- A command keeps the tables, `POLY` and `TV`, unless it is a successful BUILD. -/
theorem exec_field {i : Instr} (h : exec i s = .next t) :
    SameField s t ∨ ∃ p, i = .build p ∧ Committed p s t := by
  obtain ⟨e, _, rfl⟩ | ⟨_, _, _, v, rfl⟩ | ⟨_, rfl⟩ | ⟨p, L, rfl, htv, _, hL, rfl⟩ := exec_cases h
  · exact .inl ⟨rfl, rfl, rfl⟩
  · exact .inl ⟨rfl, rfl, rfl⟩
  · exact .inl ⟨rfl, rfl, rfl⟩
  · exact .inr ⟨p, rfl, htv, rfl, rfl, rfl, hL⟩

/-- A word keeps the tables, `POLY` and `TV`, unless it is a successful BUILD. -/
theorem runWord_field {w : Word} (h : runWord w s = .next t) :
    SameField s t ∨ ∃ p, decode w = .ok (.build p) ∧ Committed p s t := by
  obtain ⟨i, hd, hi⟩ | ⟨_, _, rfl⟩ := runWord_next h
  · obtain hs | ⟨p, rfl, hc⟩ := exec_field hi
    · exact .inl hs
    · exact .inr ⟨p, hd, hc⟩
  · exact .inl ⟨rfl, rfl, rfl⟩

/-- A step keeps the tables, `POLY` and `TV`, unless it is a successful BUILD or a reset of the block. -/
theorem step_field (h : step s = .next t) :
    SameField s t ∨
    (∃ w rest p, s.inputs = .command w :: rest ∧ decode w = .ok (.build p) ∧ Committed p s t) ∨
    (t.tv = false ∧ t.poly = 0) := by
  obtain ⟨_, rfl⟩ | ⟨w, rest, hin, hw⟩ | ⟨rest, _, rfl⟩ | ⟨w, taken, rest, _, hw⟩ := step_cases h
  · exact .inl ⟨rfl, rfl, rfl⟩
  · obtain ⟨ht, hp, hv⟩ | ⟨p, hd, hc⟩ := runWord_field hw
    · exact .inl ⟨ht, hp, hv⟩
    · exact .inr (.inl ⟨w, rest, p, hin, hd, { hc with tv_before := hc.tv_before }⟩)
  · exact .inr (.inr ⟨rfl, rfl⟩)
  · obtain ⟨u, _, rfl⟩ := abandonWord_next hw
    exact .inr (.inr ⟨rfl, rfl⟩)

/-- While `TV` = 1 a command keeps the tables, `POLY` and `TV` (R20). -/
theorem exec_sameField_of_tv {i : Instr} (hs : s.tv = true) (h : exec i s = .next t) : SameField s t := by
  obtain hf | ⟨_, _, hc⟩ := exec_field h
  · exact hf
  · simp [hc.tv_before] at hs

/-- A command after which `TV` = 0 has kept the tables. -/
theorem exec_sameField_of_tv_after {i : Instr} (ht : t.tv = false) (h : exec i s = .next t) : SameField s t := by
  obtain hf | ⟨_, _, hc⟩ := exec_field h
  · exact hf
  · simp [hc.tv_after] at ht

/-! ### What the host has yet to do -/

/-- A command leaves the host's coming actions alone. -/
theorem exec_inputs {i : Instr} (h : exec i s = .next t) : t.inputs = s.inputs := by
  obtain ⟨e, _, rfl⟩ | ⟨_, _, _, v, rfl⟩ | ⟨_, rfl⟩ | ⟨p, L, _, _, _, _, rfl⟩ := exec_cases h <;> rfl

/-- A word leaves the host's coming actions alone. -/
theorem runWord_inputs {w : Word} (h : runWord w s = .next t) : t.inputs = s.inputs := by
  obtain ⟨i, _, hi⟩ | ⟨_, _, rfl⟩ := runWord_next h
  · exact exec_inputs hi
  · rfl

/-- A step takes the host's first action and leaves the others alone (R37). -/
theorem step_inputs (h : step s = .next t) : t.inputs = s.inputs.tail := by
  obtain ⟨hin, rfl⟩ | ⟨w, rest, hin, hw⟩ | ⟨rest, hin, rfl⟩ | ⟨w, taken, rest, hin, hw⟩ := step_cases h
  · simp [hin]
  · simp [hin, runWord_inputs hw]
  · simp [hin]
  · obtain ⟨u, hu, rfl⟩ := abandonWord_next hw
    simp [hin, runWord_inputs hu]

/-! ### The invariant -/

/-- Without tables and with `POLY` = 0x00 the invariant holds. -/
theorem inv_of_unbuilt (htv : s.tv = false) (hpoly : s.poly = 0) : Inv s :=
  ⟨fun h => by simp [htv] at h, fun _ => hpoly⟩

/-- The invariant speaks of the tables, `POLY` and `TV` alone. -/
theorem SameField.inv (h : SameField s t) (hs : Inv s) : Inv t := by
  obtain ⟨ht, hp, hv⟩ := h
  simpa only [Inv, TablesMatchPoly, PolyZeroBeforeBuild, ht, hp, hv] using hs

/-- Tables that are valid and built from `POLY` are what the invariant asks for (R15). -/
theorem inv_of_builtFrom (htv : s.tv = true) (h : BuiltFrom s.poly s.tables) : Inv s :=
  ⟨fun _ => ⟨h.valid, h.exp, h.log⟩, fun hf => by simp [htv] at hf⟩

/-- Under the invariant the tables are built from `POLY` while `TV` = 1 (R15). -/
theorem Inv.builtFrom (hs : Inv s) (htv : s.tv = true) : BuiltFrom s.poly s.tables := by
  obtain ⟨_, hexp, hlog⟩ := hs.1 htv
  exact ⟨hexp, hlog⟩

/-- A successful BUILD establishes the invariant (R72). -/
theorem Committed.inv {p : Byte} (h : Committed p s t) : Inv t :=
  inv_of_builtFrom h.tv_after (h.poly ▸ h.built)

/-- Settles O26, by the three things a step can do to the tables. -/
theorem everyStepKeepsTheInvariant : Obligations.EveryStepKeepsTheInvariant := by
  intro s t hs h
  obtain hf | ⟨_, _, _, _, _, hc⟩ | ⟨htv, hpoly⟩ := step_field h
  · exact hf.inv hs
  · exact hc.inv
  · exact inv_of_unbuilt htv hpoly

/-- Settles O25: reset leaves `TV` = 0 and `POLY` = 0x00. -/
theorem resetMeetsTheInvariant : Obligations.ResetMeetsTheInvariant := inv_of_unbuilt rfl rfl

/-! ### Runs without a reset -/

/-- The host only presents command words: it neither resets the block nor abandons a command. -/
def OnlyCommands (s : State) : Prop := ∀ x ∈ s.inputs, ∃ w, x = Input.command w

/-- A step taken while the host only presents commands leaves it so. -/
theorem step_onlyCommands (hs : OnlyCommands s) (h : step s = .next t) : OnlyCommands t := fun x hx =>
  hs x (List.mem_of_mem_tail (step_inputs h ▸ hx))

/-- While `TV` = 1 and the host only presents commands, a step keeps the tables, `POLY` and `TV`. -/
theorem step_sameField_of_tv (htv : s.tv = true) (hs : OnlyCommands s) (h : step s = .next t) : SameField s t := by
  obtain ⟨_, rfl⟩ | ⟨w, rest, _, hw⟩ | ⟨rest, hin, _⟩ | ⟨w, taken, rest, hin, _⟩ := step_cases h
  · exact ⟨rfl, rfl, rfl⟩
  · obtain ⟨ht, hp, hv⟩ | ⟨_, _, hc⟩ := runWord_field hw
    · exact ⟨ht, hp, hv⟩
    · exact absurd (htv.symm.trans hc.tv_before) (by decide)
  · obtain ⟨_, hx⟩ := hs .reset (by simp [hin])
    cases hx
  · obtain ⟨_, hx⟩ := hs (.resetDuring w taken) (by simp [hin])
    cases hx

/-- A run that goes on for `k + 1` steps is a step and a run of `k` steps. -/
theorem run_succ {k : Nat} (h : Host.Core.run Sys2Proof.core (k + 1) s = .next t) :
    ∃ u : State, step s = .next u ∧ Host.Core.run Sys2Proof.core k u = .next t := by
  simp only [Host.Core.run] at h
  split at h
  · rename_i u hu; exact ⟨u, hu, h⟩
  · cases h
  · cases h

/-- Settles O53, by induction on the number of steps. -/
theorem builtFieldLastsUntilReset : Obligations.BuiltFieldLastsUntilReset := by
  intro k
  induction k with
  | zero =>
    intro s t htv hin h
    cases h
    exact ⟨rfl, rfl, htv, hin⟩
  | succ k ih =>
    intro s t htv hin h
    obtain ⟨u, hu, hrun⟩ := run_succ h
    have hf := step_sameField_of_tv htv hin hu
    obtain ⟨ht, hp, hv, hc⟩ := ih u t (hf.tv.trans htv) (step_onlyCommands hin hu) hrun
    exact ⟨ht.trans hf.tables, hp.trans hf.poly, hv, hc⟩

/-- Settles O51: only a successful BUILD writes the tables, and it finds `TV` = 0. -/
theorem builtTablesAreImmutable : Obligations.BuiltTablesAreImmutable := by
  refine ⟨fun i s t hs h => ?_, fun i s t hi h => ?_⟩
  · obtain ⟨ht, hp, hv⟩ := exec_sameField_of_tv hs h
    exact ⟨ht, hp, hv.trans hs⟩
  · obtain ⟨ht, hp, hv⟩ | ⟨p, rfl, _⟩ := exec_field h
    · exact ⟨ht, hp, hv⟩
    · simp [isBuild] at hi

/-! ### What sets `TV` -/

/-- Settles O50: of the things a step can do only a successful BUILD sets `TV`. -/
theorem onlyBuildSetsTablesValid : Obligations.OnlyBuildSetsTablesValid := by
  refine ⟨rfl, fun s t h hs ht => ?_⟩
  obtain hf | ⟨w, rest, p, hin, hd, hc⟩ | ⟨htv, _⟩ := step_field h
  · simp [hf.tv, hs] at ht
  · exact ⟨p, rest, encode_of_decode hd ▸ hin, hc.built.valid, hc.poly, hc.built.exp⟩
  · simp [htv] at ht

/-! ### Reset -/

/-- Settles O10: the step is `resetBlock`. -/
theorem resetGivesTheResetState : Obligations.ResetGivesTheResetState := by
  intro s rest hin
  exact ⟨State.reset.tables, by simp [step, takeInput, hin, resetBlock, State.reset]⟩

/-- Settles O58: while `TV` = 0 the condition of `E_NOTABLE` holds for every table command. -/
theorem resetValues : Obligations.ResetValues :=
  ⟨rfl, rfl, rfl, rfl, rfl, fun _ _ => rfl, fun _ _ _ =>
    ⟨raises_of_errorOf rfl, raises_of_errorOf rfl, raises_of_errorOf rfl, raises_of_errorOf rfl,
      raises_of_errorOf rfl, raises_of_errorOf rfl⟩⟩

end Sys2Proof.Machine
/-! # The tables of a polynomial (R12 to R15, R26)

The exponent table holds the powers of `x` modulo the reduction polynomial, and a logarithm table that can be built inverts
it; so the tables of a valid polynomial are inverse bijections. -/

namespace Sys2Proof.Machine

/-! ### Bytes as polynomials over GF(2) -/

/-- The coefficient of `x^k` is bit `k` (R11). -/
theorem toPoly_coeff (v : Byte) (k : Nat) : (toPoly v).coeff k = if v.getLsbD k then 1 else 0 := by
  have hterm : ∀ i, (if v.getLsbD i then Polynomial.X ^ i else 0 : Polynomial (ZMod 2)).coeff k
      = if k = i then (if v.getLsbD i then 1 else 0) else 0 := by
    intro i
    by_cases hi : v.getLsbD i <;> simp [hi, Polynomial.coeff_X_pow]
  simp only [toPoly, Polynomial.finsetSum_coeff, hterm, Finset.sum_ite_eq, Finset.mem_range]
  split
  · rfl
  · rw [BitVec.getLsbD_of_ge v k (by omega)]; rfl

/-- The zero byte is the zero polynomial. -/
@[simp] theorem toPoly_zero : toPoly 0#8 = 0 := by
  ext k; simp [toPoly_coeff]

/-- The byte 0x01 is the polynomial 1. -/
@[simp] theorem toPoly_one : toPoly 1#8 = 1 := by
  ext k
  rw [toPoly_coeff, Polynomial.coeff_one]
  rcases k with _ | k <;> simp

/-- The only byte whose polynomial is zero is 0x00. -/
theorem toPoly_eq_zero {v : Byte} (h : toPoly v = 0) : v = 0 := by
  apply BitVec.eq_of_getLsbD_eq
  intro k _
  have hk : (toPoly v).coeff k = 0 := by rw [h]; simp
  rw [toPoly_coeff] at hk
  simpa using hk

/-- XOR of bytes is addition of polynomials (R86). -/
theorem toPoly_xor (a b : Byte) : toPoly (a ^^^ b) = toPoly a + toPoly b := by
  ext k
  rw [Polynomial.coeff_add, toPoly_coeff, toPoly_coeff, toPoly_coeff, BitVec.getLsbD_xor]
  cases a.getLsbD k <;> cases b.getLsbD k <;> decide

/-- The polynomial of a byte has degree below 8 (R11). -/
theorem toPoly_degree_lt (v : Byte) : (toPoly v).degree < (8 : Nat) := by
  rw [Polynomial.degree_lt_iff_coeff_zero]
  intro k hk
  rw [toPoly_coeff, BitVec.getLsbD_of_ge v k hk]
  rfl

/-- The reduction polynomial is monic. -/
theorem reductionPoly_monic (p : Byte) : (reductionPoly p).Monic :=
  Polynomial.monic_X_pow_add (toPoly_degree_lt p)

/-- The reduction polynomial has degree 8 (R6). -/
theorem reductionPoly_natDegree (p : Byte) : (reductionPoly p).natDegree = 8 := by
  have hlt : (toPoly p).degree < (Polynomial.X ^ 8 : Polynomial (ZMod 2)).degree := by
    simpa using toPoly_degree_lt p
  rw [reductionPoly, Polynomial.natDegree_add_eq_left_of_degree_lt hlt, Polynomial.natDegree_X_pow]

/-! ### Doubling -/

/-- Multiplication by `x` is the shift, and the bit shifted out is the coefficient of `x^8` (R65). -/
theorem X_mul_toPoly (v : Byte) :
    Polynomial.X * toPoly v = toPoly (v <<< 1) + if v.msb then Polynomial.X ^ 8 else 0 := by
  ext k
  have hcoeff : (if v.msb then Polynomial.X ^ 8 else 0 : Polynomial (ZMod 2)).coeff k
      = if k = 8 ∧ v.getLsbD 7 then 1 else 0 := by
    rw [show v.msb = v.getLsbD 7 from BitVec.msb_eq_getLsbD_last v]
    cases v.getLsbD 7 <;> simp [Polynomial.coeff_X_pow]
  rw [Polynomial.coeff_add, hcoeff, toPoly_coeff, BitVec.getLsbD_shiftLeft]
  rcases k with _ | k
  · simp
  · rw [Polynomial.coeff_X_mul, toPoly_coeff]
    rcases lt_trichotomy k 7 with hk | rfl | hk
    · simp [show k + 1 < 8 by omega, show k ≠ 7 by omega]
    · simp
    · simp [BitVec.getLsbD_of_ge v k (by omega), show ¬ k + 1 < 8 by omega, show k ≠ 7 by omega]

/-- Doubling is multiplication by `x` modulo the reduction polynomial (R65). -/
theorem reductionPoly_dvd_double (v p : Byte) :
    reductionPoly p ∣ Polynomial.X * toPoly v - toPoly (double v p) := by
  rw [X_mul_toPoly, double]
  cases v.msb with
  | false => simp
  | true =>
    have h : toPoly (v <<< 1) + Polynomial.X ^ 8 - toPoly ((v <<< 1) ^^^ p) = reductionPoly p := by
      rw [toPoly_xor, reductionPoly, add_sub_add_left_eq_sub, CharTwo.sub_eq_add]
    simp [h]

/-! ### The exponent table -/

/-- The doublings of a byte are the iterates of `double` on it (R66). -/
theorem doublings_getElem (p : Byte) (n : Nat) (v : Byte) (e : Nat) (he : e < (doublings p n v).length) :
    (doublings p n v)[e] = (fun v => double v p)^[e] v := by
  induction n generalizing v e with
  | zero => simp [doublings] at he
  | succ n ih =>
    cases e with
    | zero => rfl
    | succ e => exact ih (double v p) e (by simpa [doublings] using he)

/-- Entry `e` is 0x01 doubled `e` times (R66). -/
theorem buildExponentTable_getElem (p : Byte) {e : Nat} (he : e < 255) :
    (buildExponentTable p)[e] = (fun v => double v p)^[e] 1#8 :=
  doublings_getElem p 255 1#8 e (by simpa [doublings_length] using he)

/-- Entry 0 is 0x01 (R12). -/
@[simp] theorem buildExponentTable_zero (p : Byte) : (buildExponentTable p)[0] = 1 := rfl

/-- Every later entry is the double of the one before it (R66). -/
theorem buildExponentTable_succ (p : Byte) {e : Nat} (he : e + 1 < 255) :
    (buildExponentTable p)[e + 1] = double (buildExponentTable p)[e] p := by
  rw [buildExponentTable_getElem, buildExponentTable_getElem, Function.iterate_succ_apply']

/-- Entry 1 is 0x02, whatever the polynomial (R26). -/
@[simp] theorem buildExponentTable_one (p : Byte) : (buildExponentTable p)[1] = 2 := rfl

/-- Entry `e` is `x^e` modulo the reduction polynomial (R26). -/
theorem reductionPoly_dvd_exp (p : Byte) {e : Nat} (he : e < 255) :
    reductionPoly p ∣ Polynomial.X ^ e - toPoly (buildExponentTable p)[e] := by
  induction e with
  | zero => simp
  | succ e ih =>
    have hx := (ih (by omega)).mul_left Polynomial.X
    have hd := reductionPoly_dvd_double (buildExponentTable p)[e] p
    rw [buildExponentTable_succ p he]
    convert dvd_add hx hd using 1
    ring

/-- A power of `x` is a multiple of no reduction polynomial but `x^8` (R70). -/
theorem eq_zero_of_reductionPoly_dvd_X_pow {p : Byte} {e : Nat} (h : reductionPoly p ∣ Polynomial.X ^ e) : p = 0 := by
  obtain ⟨i, _, hi⟩ := (dvd_prime_pow Polynomial.prime_X e).1 h
  have heq := Polynomial.eq_of_monic_of_associated (reductionPoly_monic p) (Polynomial.monic_X_pow i) hi
  have hdeg : i = 8 := by simpa [heq] using reductionPoly_natDegree p
  rw [hdeg, reductionPoly, add_eq_left] at heq
  exact toPoly_eq_zero heq

/-- The exponent table holds 0x00 under the polynomial 0x00 only (R70). -/
theorem buildExponentTable_ne_zero {p : Byte} (hp : p ≠ 0) {e : Nat} (he : e < 255) :
    (buildExponentTable p)[e] ≠ 0 := by
  intro h0
  have h := reductionPoly_dvd_exp p he
  rw [h0, show toPoly 0 = 0 from toPoly_zero, sub_zero] at h
  exact hp (eq_zero_of_reductionPoly_dvd_X_pow h)

/-! ### The logarithm table -/

/-- An exponent in 16 bits is not the sentinel. -/
theorem ofNat_ne_sentinel {e : Nat} (he : e < 65535) : BitVec.ofNat 16 e ≠ sentinel := by
  intro h
  have := congrArg BitVec.toNat h
  simp [sentinel] at this
  omega

/-- Every slot the loop writes was unset before it: entries are written once (R67). -/
theorem slot_of_mem_of_fillLog {vs : List Byte} {e : Nat} {L M : ScratchLog} (h : fillLog vs e L = some M)
    (he : e + vs.length ≤ 65535) : ∀ v ∈ vs, slot L v.toNat = sentinel := by
  induction vs generalizing e L with
  | nil => simp
  | cons x rest ih =>
    obtain ⟨hx, hrest⟩ := fillLog_cons_some h
    rintro v (_ | ⟨_, hv⟩)
    · exact hx
    · have hv' := ih hrest (by simp at he; omega) v hv
      by_cases hxv : x.toNat = v.toNat
      · exact hxv ▸ hx
      · rwa [slot_setSlot_other _ _ hxv] at hv'

/-- The loop leaves alone every slot that none of its entries names. -/
theorem slot_of_not_mem_of_fillLog {vs : List Byte} {e : Nat} {L M : ScratchLog} (h : fillLog vs e L = some M)
    {v : Byte} (hv : v ∉ vs) : slot M v.toNat = slot L v.toNat := by
  induction vs generalizing e L with
  | nil =>
    obtain rfl : L = M := by simpa [fillLog] using h
    rfl
  | cons x rest ih =>
    obtain ⟨_, hrest⟩ := fillLog_cons_some h
    obtain ⟨hvx, hvrest⟩ : v ≠ x ∧ v ∉ rest := by simpa using hv
    have hne : x.toNat ≠ v.toNat := fun hxv => hvx (BitVec.eq_of_toNat_eq hxv.symm)
    rw [ih hrest hvrest, slot_setSlot_other _ _ hne]

/-- The loop leaves in the slot of its `k`-th entry the exponent of that entry (R67). -/
theorem slot_getElem_of_fillLog {vs : List Byte} {e : Nat} {L M : ScratchLog} (h : fillLog vs e L = some M)
    (he : e + vs.length ≤ 65535) (k : Nat) (hk : k < vs.length) :
    slot M vs[k].toNat = BitVec.ofNat 16 (e + k) := by
  induction vs generalizing e L k with
  | nil => simp at hk
  | cons x rest ih =>
    obtain ⟨_, hrest⟩ := fillLog_cons_some h
    have he' : e + 1 + rest.length ≤ 65535 := by simp at he; omega
    cases k with
    | zero =>
      have hx : x ∉ rest := by
        intro hmem
        have hset := slot_of_mem_of_fillLog hrest he' x hmem
        rw [slot_setSlot_same] at hset
        exact ofNat_ne_sentinel (by omega) hset
      simp [slot_of_not_mem_of_fillLog hrest hx, slot_setSlot_same]
    | succ k =>
      rw [List.getElem_cons_succ, ih hrest he' k (by simpa using hk)]
      congr 1; omega

/-- Different exponents are different in 16 bits. -/
theorem exponentBits_injective : Function.Injective exponentBits := by
  intro e f h
  have h' := congrArg BitVec.toNat h
  simp [exponentBits] at h'
  omega

/-- A logarithm table built from an exponent table holds at each entry the exponent of that entry (R67). -/
theorem logEntry_expEntry {tb : Tables} (h : buildLogarithmTable tb.exp = some tb.log) (e : Fin 255) :
    logEntry tb (expEntry tb e) = exponentBits e := by
  obtain ⟨M, hM, hlog⟩ := Option.map_eq_some_iff.1 h
  have hslot := slot_getElem_of_fillLog hM (by simp) e.val (by simp)
  simpa [logEntry, expEntry, exponentBits, ← hlog] using hslot

/-- A slot that no entry of the exponent table names keeps the sentinel (R67). -/
theorem logEntry_of_not_entry {tb : Tables} (h : buildLogarithmTable tb.exp = some tb.log) {v : Byte}
    (hv : ∀ e, expEntry tb e ≠ v) : logEntry tb v = sentinel := by
  obtain ⟨M, hM, hlog⟩ := Option.map_eq_some_iff.1 h
  have hmem : v ∉ tb.exp.toList := by
    intro hm
    obtain ⟨e, he, rfl⟩ := List.mem_iff_getElem.1 hm
    exact hv ⟨e, by simpa using he⟩ (by simp [expEntry])
  simp [logEntry, ← hlog, slot_of_not_mem_of_fillLog hM hmem, slot_emptyScratch v.isLt]

/-- A logarithm table can be built only from an exponent table without a repeated entry (R67). -/
theorem expEntry_injective {tb : Tables} (h : buildLogarithmTable tb.exp = some tb.log) :
    Function.Injective (expEntry tb) := by
  intro e f hef
  apply exponentBits_injective
  rw [← logEntry_expEntry h e, hef, logEntry_expEntry h f]

/-! ### The tables of a valid polynomial -/

namespace BuiltFrom

variable {p : Byte} {tb : Tables}

/-- Entry `e` of the exponent table is that of the table of `p`. -/
theorem expEntry_eq (h : BuiltFrom p tb) (e : Fin 255) : expEntry tb e = (buildExponentTable p)[e.val] := by
  simp [expEntry, h.exp]

/-- The polynomial 0x00 is not valid: its exponent table repeats 0x00 (R70). -/
theorem poly_ne_zero (h : BuiltFrom p tb) : p ≠ 0 := by
  rintro rfl
  have hrepeat : expEntry tb 8 = expEntry tb 9 := by rw [h.expEntry_eq, h.expEntry_eq]; rfl
  exact absurd (expEntry_injective h.log hrepeat) (by decide)

/-- No entry of the exponent table is zero (R69). -/
theorem expEntry_ne_zero (h : BuiltFrom p tb) (e : Fin 255) : expEntry tb e ≠ 0 := by
  rw [h.expEntry_eq]
  exact buildExponentTable_ne_zero h.poly_ne_zero e.isLt

/-- Every nonzero byte is an entry: there are 255 entries, no two equal, and 255 nonzero bytes (R69). -/
theorem exists_expEntry_eq (h : BuiltFrom p tb) {a : Byte} (ha : a ≠ 0) : ∃ e, expEntry tb e = a := by
  have himage : Finset.univ.image (expEntry tb) = Finset.univ.erase 0 := by
    apply Finset.eq_of_subset_of_card_le
    · rw [Finset.image_subset_iff]
      exact fun e _ => Finset.mem_erase.2 ⟨h.expEntry_ne_zero e, Finset.mem_univ _⟩
    · rw [Finset.card_image_of_injective _ (expEntry_injective h.log), Finset.card_erase_of_mem (Finset.mem_univ _),
        Finset.card_univ, Finset.card_univ, ← FinEnum.card_eq_fintypeCard, FinEnum.card_bitVec, Fintype.card_fin]
      decide
  have hmem : a ∈ Finset.univ.image (expEntry tb) := himage ▸ Finset.mem_erase.2 ⟨ha, Finset.mem_univ a⟩
  simpa using hmem

/-- `LOG[0]` is the sentinel (R14). -/
theorem logEntry_zero (h : BuiltFrom p tb) : logEntry tb 0 = sentinel :=
  logEntry_of_not_entry h.log h.expEntry_ne_zero

/-- The logarithm of a nonzero byte is the exponent at which the exponent table holds it (R14). -/
theorem exists_logEntry_eq (h : BuiltFrom p tb) {a : Byte} (ha : a ≠ 0) :
    ∃ e, logEntry tb a = exponentBits e ∧ expEntry tb e = a := by
  obtain ⟨e, rfl⟩ := h.exists_expEntry_eq ha
  exact ⟨e, logEntry_expEntry h.log e, rfl⟩

/-- `EXP[0]` is 0x01 (R12). -/
theorem expEntry_zero (h : BuiltFrom p tb) : expEntry tb 0 = 0x01 := h.expEntry_eq 0

/-- `EXP[1]` is 0x02 (R26). -/
theorem expEntry_one (h : BuiltFrom p tb) : expEntry tb 1 = 0x02 := h.expEntry_eq 1

/-- `LOG[0x01]` is 0 (R26). -/
theorem logEntry_one (h : BuiltFrom p tb) : logEntry tb 0x01 = 0 :=
  h.expEntry_zero ▸ logEntry_expEntry h.log 0

/-- `LOG[0x02]` is 1 (R26). -/
theorem logEntry_two (h : BuiltFrom p tb) : logEntry tb 0x02 = 1 :=
  h.expEntry_one ▸ logEntry_expEntry h.log 1

/-- `EXP[e]` is `x^e` modulo the reduction polynomial (R26). -/
theorem reductionPoly_dvd_expEntry (h : BuiltFrom p tb) (e : Fin 255) :
    reductionPoly p ∣ Polynomial.X ^ e.val - toPoly (expEntry tb e) := by
  rw [h.expEntry_eq]
  exact reductionPoly_dvd_exp p e.isLt

end BuiltFrom

/-- Settles O27: the tables of a state with `TV` = 1 are built from `POLY`. -/
theorem committedTablesAreInverseBijections : Obligations.CommittedTablesAreInverseBijections := by
  intro s hs htv
  have h := hs.builtFrom htv
  exact ⟨(hs.1 htv).1, h.exp, h.log, h.expEntry_zero, h.logEntry_zero, fun a ha => h.exists_logEntry_eq ha,
    fun e => ⟨h.expEntry_ne_zero e, logEntry_expEntry h.log e⟩⟩

/-- Settles O28: the exponent table of `POLY` holds the powers of `x`. -/
theorem generatorIsX : Obligations.GeneratorIsX := by
  intro s hs htv
  have h := hs.builtFrom htv
  exact ⟨h.reductionPoly_dvd_expEntry, h.expEntry_one, h.logEntry_one, h.logEntry_two⟩

end Sys2Proof.Machine
/-! # What the commands show of the flags and of tables not yet built (R17, R19, R27) -/

namespace Sys2Proof.Machine

variable {s t u : State}

/-! ### The last beat and `SE` -/

/-- A command ends in an error beat and sets `SE`, or ends in an `OK` beat and leaves `SE` as it was (R19, R54). -/
theorem exec_last {i : Instr} (h : exec i s = .next t) :
    (∃ e d, t.responses.getLast? = some ⟨.err e, d⟩ ∧ t.se = true) ∨
    (∃ d, t.responses.getLast? = some ⟨.ok, d⟩ ∧ t.se = s.se) := by
  obtain ⟨e, _, rfl⟩ | ⟨_, _, _, v, rfl⟩ | ⟨_, rfl⟩ | ⟨p, L, _, _, _, _, rfl⟩ := exec_cases h
  · exact .inl ⟨e, Config.errorData s.draws, by simp, rfl⟩
  · exact .inr ⟨v, by simp, rfl⟩
  · exact .inr ⟨BitVec.ofNat 16 validPolynomials.length, by simp [scanBeats], rfl⟩
  · exact .inr ⟨0, by simp, rfl⟩

/-- A word ends in an error beat and sets `SE`, or ends in an `OK` beat and leaves `SE` as it was (R19, R50). -/
theorem runWord_last {w : Word} (h : runWord w s = .next t) :
    (∃ e d, t.responses.getLast? = some ⟨.err e, d⟩ ∧ t.se = true) ∨
    (∃ d, t.responses.getLast? = some ⟨.ok, d⟩ ∧ t.se = s.se) := by
  obtain ⟨i, _, hi⟩ | ⟨_, _, rfl⟩ := runWord_next h
  · exact exec_last hi
  · exact .inl ⟨.illegal, Config.errorData s.draws, by simp, rfl⟩

/-! ### RDSTS -/

/-- RDSTS answers `POLY` and `STATUS` in every state (R107). -/
theorem answers_rdsts (s : State) : Answers .rdsts s (s.poly ++ statusByte s) := rfl

/-- Bits 7:2 of `STATUS` are zero (R17). -/
theorem statusByte_high (s : State) {k : Nat} (hk : 2 ≤ k) : (statusByte s).getLsbD k = false := by
  change (0#6 ++ BitVec.ofBool s.se ++ BitVec.ofBool s.tv : BitVec (6 + 1 + 1)).getLsbD k = false
  rw [BitVec.getLsbD_append, if_neg (by omega), BitVec.getLsbD_append, if_neg (by omega), BitVec.getLsbD_zero]

/-- `STATUS` without tables is 0x00 or 0x02 (R17). -/
theorem statusByte_of_absent (htv : s.tv = false) : statusByte s = 0x00 ∨ statusByte s = 0x02 := by
  rw [statusByte, htv]
  cases s.se <;> decide

/-- `STATUS` with tables is 0x01 or 0x03 (R17). -/
theorem statusByte_of_valid (htv : s.tv = true) : statusByte s = 0x01 ∨ statusByte s = 0x03 := by
  rw [statusByte, htv]
  cases s.se <;> decide

/-- The gate passes, of the 256 candidates, the sixteen polynomials of R77's list: the evaluation of SCAN's search. -/
theorem validPolynomials_eq : validPolynomials = listedPolynomials := by decide +kernel

/-- A polynomial is valid exactly when R77 lists it. -/
theorem valid_iff_listed (p : Byte) : valid p = true ↔ p ∈ listedPolynomials := by
  have hp : p ∈ candidates := List.mem_map.2 ⟨p.toNat, List.mem_range.2 p.isLt, by simp⟩
  rw [← validPolynomials_eq, validPolynomials, List.mem_filter, and_iff_right hp]

/-- Settles O45: bit by bit, and under the invariant by the list of valid polynomials. -/
theorem rdstsReadsPolyAndStatus : Obligations.RdstsReadsPolyAndStatus := by
  intro s
  have hans := answers_rdsts s
  refine ⟨rfl, ⟨statusByte s, hans, statusByte_bit0 s, statusByte_bit1 s, fun k => statusByte_high s⟩,
    fun hs htv => ?_, fun hs htv => ?_, rfl⟩
  · rw [hs.2 htv] at hans
    obtain hst | hst := statusByte_of_absent htv <;> rw [hst] at hans
    · exact .inl hans
    · exact .inr hans
  · refine ⟨s.poly, (valid_iff_listed _).1 (hs.1 htv).1, ?_⟩
    obtain hst | hst := statusByte_of_valid htv <;> rw [hst] at hans
    · exact .inl hans
    · exact .inr hans

/-! ### States that no command but RDSTS tells apart

`Alike c s u`: `u` differs from `s` at most in the tables while `TV` = 0 and, unless `c` holds, in `SE`. Every command that
does not read `SE` takes such states to such states; so neither `SE` (R19) nor the contents of unbuilt tables (R27) show. -/

/-- `u` is `s` but for tables that are not valid and, unless `c`, for `SE`. -/
structure Alike (c : Prop) (s u : State) : Prop where
  tables : s.tv = true → u.tables = s.tables
  poly : u.poly = s.poly
  tv : u.tv = s.tv
  se : c → u.se = s.se
  inputs : u.inputs = s.inputs
  responses : u.responses = s.responses
  draws : u.draws = s.draws

/-- If the first outcome is a next state, the second is one that is alike. -/
def AlikeNext (c : Prop) (o o' : Host.Outcome State Fault Refusal) : Prop :=
  ∀ t, o = .next t → ∃ v, o' = .next v ∧ Alike c t v

namespace Alike

variable {c : Prop}

/-- A next state and one alike are outcomes alike. -/
theorem next (h : Alike c s u) : AlikeNext c (.next s) (.next u) := by
  rintro _ ⟨⟩
  exact ⟨u, rfl, h⟩

/-- The same beats transferred keep states alike. -/
theorem emit (h : Alike c s u) (bs : List Beat) : Alike c (emit bs s) (emit bs u) :=
  { h with responses := by simp [h.responses] }

/-- The same answer keeps states alike. -/
theorem respond (h : Alike c s u) (v : Half) : Alike c (respond v s) (respond v u) := h.emit _

/-- The same error keeps states alike: its free value is that of the same draw. -/
theorem raise (h : Alike c s u) (e : Err) : Alike c (raise e s) (raise e u) :=
  { h with
    se := fun _ => rfl
    responses := by simp [h.responses, h.draws]
    draws := by simp [h.draws] }

/-- A commit of the same tables keeps states alike. -/
theorem commitTables (h : Alike c s u) (p : Byte) (T : ExpTable) (L : LogTable) :
    Alike c (commitTables p T L s) (commitTables p T L u) :=
  { h with tables := fun _ => rfl, poly := rfl, tv := rfl }

/-- The test of `TV` gives the same result in states alike, and what runs behind it sees the same tables. -/
theorem needTables (h : Alike c s u) {run run' : Host.Outcome State Fault Refusal}
    (hrun : u.tables = s.tables → AlikeNext c run run') :
    AlikeNext c (needTables s run) (needTables u run') := by
  cases htv : s.tv with
  | false =>
    rw [needTables_absent htv, needTables_absent (h.tv.trans htv)]
    exact (h.raise .noTable).next
  | true =>
    rw [needTables_valid htv, needTables_valid (h.tv.trans htv)]
    exact hrun (h.tables htv)

/-- A field command with the same result ends alike. -/
theorem answer (h : Alike c s u) (r : EngineResult) : AlikeNext c (answer r s) (answer r u) := by
  cases r with
  | value v => exact (h.respond _).next
  | divByZero => exact (h.raise .div0).next
  | noEntry => rintro _ ⟨⟩

/-- BUILD reads nothing of the state but `TV`. -/
theorem execBuild (h : Alike c s u) (p : Byte) : AlikeNext c (execBuild p s) (execBuild p u) := by
  unfold Machine.execBuild
  rw [h.tv]
  split
  · exact (h.raise .built).next
  · split
    · exact (h.raise .badPoly).next
    · exact ((h.commitTables ..).respond 0).next

/-- A command takes states alike to states alike, RDSTS those with the same `SE`. -/
theorem exec (h : Alike c s u) {i : Instr} (hc : i = .rdsts → c) : AlikeNext c (exec i s) (exec i u) := by
  cases i with
  | build p => exact h.execBuild p
  | scan => exact (h.emit _).next
  | add a b | sub a b => exact (h.respond _).next
  | mul a b | div a b | pow a n | inv a =>
    exact h.needTables fun htab => htab ▸ h.answer _
  | rdexp e =>
    refine h.needTables fun htab => ?_
    rw [htab]
    split
    · exact (h.respond _).next
    · exact (h.raise .index).next
  | rdlog a => exact h.needTables fun htab => htab ▸ (h.respond _).next
  | rdsts =>
    have hst : s.poly ++ statusByte s = u.poly ++ statusByte u := by
      rw [h.poly, statusByte_congr h.tv.symm (h.se (hc rfl)).symm]
    unfold Machine.exec execRdsts
    exact hst ▸ (h.respond _).next

/-- A word takes states alike, `SE` included, to states alike. -/
theorem runWord (h : Alike True s u) (w : Word) : AlikeNext True (runWord w s) (runWord w u) := by
  unfold Machine.runWord
  split
  · exact h.exec fun _ => trivial
  · exact (h.raise .illegal).next

/-- A reset gives the same state but for what lies outside the block. -/
theorem resetBlock (h : Alike c s u) : Alike c (resetBlock s) (resetBlock u) :=
  { tables := fun _ => rfl, poly := rfl, tv := rfl, se := fun _ => rfl
    inputs := h.inputs, responses := h.responses, draws := h.draws }

/-- The same inputs left keep states alike. -/
theorem withInputs (h : Alike c s u) (xs : List Input) : Alike c { s with inputs := xs } { u with inputs := xs } :=
  { h with inputs := rfl }

/-- The same beats transferred before keep states alike. -/
theorem withResponses (h : Alike c s u) (bs : List Beat) :
    Alike c { s with responses := bs } { u with responses := bs } :=
  { h with responses := rfl }

/-- A step takes states alike, `SE` included, to states alike. -/
theorem step (h : Alike True s u) : AlikeNext True (step s) (step u) := by
  unfold Machine.step takeInput
  rw [h.inputs]
  split
  · exact h.next
  · exact (h.withInputs _).runWord _
  · exact (h.withInputs _).resetBlock.next
  · rename_i w taken rest _
    intro t ht
    obtain ⟨s', hs', rfl⟩ := abandonWord_next ht
    obtain ⟨u', hu', h'⟩ := ((h.withInputs rest).withResponses []).runWord w s' hs'
    refine ⟨_, ?_, (h'.withResponses _).resetBlock⟩
    simp [abandonWord, hu', h.responses, h'.responses]

end Alike

/-- Settles O49: `SE` is set with the error beat, and states that differ in `SE` are alike to every command but
RDSTS. -/
theorem stickyErrorRecordsAndAffectsNothing : Obligations.StickyErrorRecordsAndAffectsNothing := by
  refine ⟨rfl, fun w s t last h hlast => ?_, fun i s t flag hi h => ?_⟩
  · obtain ⟨e, d, hl, hse⟩ | ⟨d, hl, hse⟩ := runWord_last h
    · obtain rfl : ⟨.err e, d⟩ = last := Option.some.inj (hl.symm.trans hlast)
      exact ⟨fun _ => hse, by rintro ⟨⟩, fun _ => hse⟩
    · obtain rfl : ⟨.ok, d⟩ = last := Option.some.inj (hl.symm.trans hlast)
      exact ⟨by rintro ⟨⟩, fun _ => hse, hse.trans⟩
  · have halike : Alike False s { s with se := flag } :=
      { tables := fun _ => rfl, poly := rfl, tv := rfl, se := False.elim, inputs := rfl, responses := rfl, draws := rfl }
    obtain ⟨u, hu, h'⟩ := halike.exec (fun hr => absurd hr hi) t h
    refine ⟨u, hu, h'.responses, ?_, h'.poly, h'.tv⟩
    cases htv : t.tv with
    | true => exact h'.tables htv
    | false =>
      exact (exec_sameField_of_tv_after (h'.tv.trans htv) hu).tables.trans
        (exec_sameField_of_tv_after htv h).tables.symm

/-- Settles O56: states that differ in tables while `TV` = 0 are alike to every step. -/
theorem unbuiltTablesAreUnobservable : Obligations.UnbuiltTablesAreUnobservable := by
  intro s t T htv h
  have halike : Alike True s { s with tables := T } :=
    { tables := fun hv => by simp [htv] at hv
      poly := rfl, tv := rfl, se := fun _ => rfl, inputs := rfl, responses := rfl, draws := rfl }
  obtain ⟨u, hu, h'⟩ := halike.step t h
  exact ⟨u, hu, h'.responses, h'.inputs, h'.poly, h'.tv, h'.se trivial, h'.tables⟩

end Sys2Proof.Machine
/-! # What the block does with the host's words (20_memory.md)

Commands are taken one at a time, their beats are only added, each leaves the rest of the state alone, and under the
invariant none stops: every index of the tables that a command computes is in range. -/

namespace Sys2Proof.Machine

variable {s t u : State}

/-! ### What the block takes from the host -/

/-- With nothing to do the block is idle (R129). -/
theorem step_idle (hin : s.inputs = []) : step s = .next s := by
  simp [step, takeInput, hin]

/-- A command word is run, on the state without it (R37). -/
theorem step_command {w : Word} {rest : List Input} (hin : s.inputs = .command w :: rest) :
    step s = runWord w { s with inputs := rest } := by
  simp [step, takeInput, hin]

/-- A reset between commands gives the reset block (R135). -/
theorem step_reset {rest : List Input} (hin : s.inputs = .reset :: rest) :
    step s = .next (resetBlock { s with inputs := rest }) := by
  simp [step, takeInput, hin]

/-- A reset during a command abandons it (R137). -/
theorem step_resetDuring {w : Word} {taken : Nat} {rest : List Input}
    (hin : s.inputs = .resetDuring w taken :: rest) :
    step s = abandonWord w taken { s with inputs := rest } := by
  simp [step, takeInput, hin]

/-- Settles O8: the word is run, and running a legal word is its command's `exec`. -/
theorem stepRunsTheDecodedCommand : Obligations.StepRunsTheDecodedCommand := by
  intro s w rest i hin hd
  rw [step_command hin, runWord_ok hd]

/-! ### The beats transferred -/

/-- A command adds its beats to those already transferred (R54). -/
theorem exec_responses {i : Instr} (h : exec i s = .next t) : ∃ bs, t.responses = s.responses ++ bs := by
  obtain ⟨e, _, rfl⟩ | ⟨_, _, _, v, rfl⟩ | ⟨_, rfl⟩ | ⟨p, L, _, _, _, _, rfl⟩ := exec_cases h <;>
    exact ⟨_, rfl⟩

/-- A word adds its beats to those already transferred (R54). -/
theorem runWord_responses {w : Word} (h : runWord w s = .next t) : ∃ bs, t.responses = s.responses ++ bs := by
  obtain ⟨i, _, hi⟩ | ⟨_, _, rfl⟩ := runWord_next h
  · exact exec_responses hi
  · exact ⟨_, rfl⟩

/-- A step, a reset among them, only adds beats to those already transferred (R37, R137). -/
theorem step_responses (h : step s = .next t) : ∃ bs, t.responses = s.responses ++ bs := by
  obtain ⟨_, rfl⟩ | ⟨w, rest, _, hw⟩ | ⟨rest, _, rfl⟩ | ⟨w, taken, rest, _, hw⟩ := step_cases h
  · exact ⟨[], by simp⟩
  · obtain ⟨bs, hbs⟩ := runWord_responses hw
    exact ⟨bs, hbs⟩
  · exact ⟨[], by simp⟩
  · obtain ⟨u, _, rfl⟩ := abandonWord_next hw
    exact ⟨u.responses.take taken, rfl⟩

/-- Settles O13: what a step does to the inputs and to the beats. -/
theorem stepTakesTheInputsInOrder : Obligations.StepTakesTheInputsInOrder :=
  fun _ _ h => ⟨step_inputs h, step_responses h⟩

/-! ### The frame of the commands -/

/-- A command that raises no error leaves `SE` and the count of draws alone (R19). -/
theorem exec_flags_of_no_error {i : Instr} (hi : errorOf i s = none) (h : exec i s = .next t) :
    t.se = s.se ∧ t.draws = s.draws := by
  obtain ⟨e, he, _⟩ | ⟨_, _, _, v, rfl⟩ | ⟨_, rfl⟩ | ⟨p, L, _, _, _, _, rfl⟩ := exec_cases h
  · simp [hi] at he
  · exact ⟨rfl, rfl⟩
  · exact ⟨rfl, rfl⟩
  · exact ⟨rfl, rfl⟩

/-- A command other than BUILD keeps the tables, `POLY` and `TV`, and so does one that raises an error (R30, R118). -/
theorem exec_sameField {i : Instr} (hi : isBuild i = false ∨ errorOf i s ≠ none) (h : exec i s = .next t) :
    SameField s t := by
  obtain hb | he := hi
  · obtain hf | ⟨p, rfl, _⟩ := exec_field h
    · exact hf
    · simp [isBuild] at hb
  · obtain ⟨e, he⟩ := Option.ne_none_iff_exists'.1 he
    rw [exec_of_errorOf he] at h
    cases h
    exact ⟨rfl, rfl, rfl⟩

/-- Settles O52: the frame of `exec`, field by field. -/
theorem commandsLeaveTheRestUnchanged : Obligations.CommandsLeaveTheRestUnchanged := by
  intro i s t h
  refine ⟨exec_inputs h, exec_responses h, fun hi => exec_flags_of_no_error hi h, fun hi => ?_⟩
  obtain ⟨ht, hp, hv⟩ := exec_sameField hi h
  exact ⟨ht, hp, hv⟩

/-! ### The same reply in two states -/

/-- Of two outcomes, one from `s` and one from `u`: both answer the same value, both raise the same error, or both stop
with the same fault. The free `DATA` bits of an error (R55) may differ. -/
inductive SameReply (s u : State) :
    Host.Outcome State Fault Refusal → Host.Outcome State Fault Refusal → Prop
  | respond (v : Half) : SameReply s u (.next (respond v s)) (.next (respond v u))
  | raise (e : Err) : SameReply s u (.next (raise e s)) (.next (raise e u))
  | fault (f : Fault) : SameReply s u (.fault f) (.fault f)

/-- A field command with the same result gives the same reply. -/
theorem SameReply.answer (s u : State) (r : EngineResult) : SameReply s u (answer r s) (answer r u) := by
  cases r with
  | value v => exact .respond _
  | divByZero => exact .raise _
  | noEntry => exact .fault _

/-- Behind the test of `TV` (R85) the reply is the same where `TV` is, if it is the same with the tables valid. -/
theorem SameReply.needTables {run run' : Host.Outcome State Fault Refusal} (htv : u.tv = s.tv)
    (h : SameReply s u run run') : SameReply s u (needTables s run) (needTables u run') := by
  cases hs : s.tv with
  | false =>
    rw [needTables_absent hs, needTables_absent (htv.trans hs)]
    exact .raise _
  | true =>
    rwa [needTables_valid hs, needTables_valid (htv.trans hs)]

/-- A field or read-out command gives the same reply in states with the same tables and `TV` (R39, R85). -/
theorem exec_sameReply {i : Instr} (hi : readsOnlyTables i = true) (htab : u.tables = s.tables) (htv : u.tv = s.tv) :
    SameReply s u (exec i s) (exec i u) := by
  cases i with
  | build p | scan | rdsts => simp [readsOnlyTables] at hi
  | add a b | sub a b => exact .respond _
  | mul a b | div a b | pow a n | inv a => exact .needTables htv (htab ▸ .answer s u _)
  | rdlog a => exact .needTables htv (htab ▸ .respond _)
  | rdexp e =>
    refine .needTables htv ?_
    rw [htab]
    split
    · exact .respond _
    · exact .raise _

/-- Two states that go on with the same reply have each received one beat, with the same status and, on `OK`, the same
data. -/
theorem SameReply.beats {o : Host.Outcome State Fault Refusal} (h : SameReply s u (.next t) o) :
    ∃ (t' : State) (b b' : Beat), o = .next t' ∧ t.responses = s.responses ++ [b] ∧
      t'.responses = u.responses ++ [b'] ∧ b.status = b'.status ∧ (b.status = .ok → b.data = b'.data) := by
  cases h with
  | respond v => exact ⟨Machine.respond v u, ⟨.ok, v⟩, ⟨.ok, v⟩, rfl, rfl, rfl, rfl, fun _ => rfl⟩
  | raise e => exact ⟨Machine.raise e u, _, _, rfl, rfl, rfl, rfl, by rintro ⟨⟩⟩

/-- Settles O55: the reply is the same. -/
theorem responsesDependOnTheTablesAlone : Obligations.ResponsesDependOnTheTablesAlone := by
  intro i s u t hi htab htv h
  exact (h ▸ exec_sameReply hi htab htv).beats

/-! ### Exponent arithmetic in range (R92) -/

section exponents

variable {p : Byte} {tb : Tables} {a b : Byte} {i j : Fin 255}

/-- The logarithm of an element, as a number, is its exponent (R13). -/
theorem logValue_of_logEntry (h : logEntry tb a = exponentBits i) : logValue tb a = (i.val : Int) :=
  logValue_of_entry i.isLt h

/-- The difference of two exponents reduces to its remainder modulo 255 (R92). -/
theorem reduceDiff_of_lt {i j : Nat} (hi : i < 255) (hj : j < 255) :
    reduceDiff ((i : Int) - j) = ((i + 255 - j) % 255 : Nat) := by
  unfold reduceDiff
  split <;> omega

/-- `EXP` has an entry at every remainder modulo 255. -/
theorem expAt_mod (tb : Tables) (k : Nat) : expAt tb ((k % 255 : Nat) : Int) = .value (expEntry tb (exponent k)) :=
  expAt_of_lt tb (exponent k).isLt

/-- The product of nonzero elements is the element at the sum of their exponents modulo 255 (R88). -/
theorem gfMul_of_logEntry (ha : a ≠ 0) (hb : b ≠ 0) (hi : logEntry tb a = exponentBits i)
    (hj : logEntry tb b = exponentBits j) :
    gfMul tb a b = .value (expEntry tb (exponent (i.val + j.val))) := by
  rw [gfMul, if_neg (not_or.2 ⟨ha, hb⟩), logValue_of_logEntry hi, logValue_of_logEntry hj,
    reduceSum_of_lt i.isLt j.isLt, expAt_mod]

/-- The quotient of nonzero elements is the element at the difference of their exponents modulo 255 (R89). -/
theorem gfDiv_of_logEntry (ha : a ≠ 0) (hb : b ≠ 0) (hi : logEntry tb a = exponentBits i)
    (hj : logEntry tb b = exponentBits j) :
    gfDiv tb a b = .value (expEntry tb (exponent (i.val + 255 - j.val))) := by
  rw [gfDiv, if_neg ha, if_neg hb, logValue_of_logEntry hi, logValue_of_logEntry hj,
    reduceDiff_of_lt i.isLt j.isLt, expAt_mod]

/-- The nonzero power of a nonzero element is the element at the product of exponent and power modulo 255 (R90). -/
theorem gfPow_of_logEntry {n : Half} (hn : n ≠ 0) (ha : a ≠ 0) (hi : logEntry tb a = exponentBits i) :
    gfPow tb a n = .value (expEntry tb (exponent (i.val * n.toNat))) := by
  have hmod : reduceProduct ((i.val : Int) * n.toNat) = ((i.val * n.toNat % 255 : Nat) : Int) := by
    simp [reduceProduct]
  rw [gfPow, if_neg hn, if_neg ha, logValue_of_logEntry hi, hmod, expAt_mod]

/-- Every product is a byte under built tables (R93). -/
theorem BuiltFrom.exists_gfMul_eq (h : BuiltFrom p tb) (a b : Byte) : ∃ v, gfMul tb a b = .value v := by
  by_cases hab : a = 0 ∨ b = 0
  · exact ⟨0, if_pos hab⟩
  · obtain ⟨ha, hb⟩ := not_or.1 hab
    obtain ⟨i, hi, _⟩ := h.exists_logEntry_eq ha
    obtain ⟨j, hj, _⟩ := h.exists_logEntry_eq hb
    exact ⟨_, gfMul_of_logEntry ha hb hi hj⟩

/-- Every quotient is a byte or a division by zero under built tables (R93). -/
theorem BuiltFrom.gfDiv_ne_noEntry (h : BuiltFrom p tb) (a b : Byte) : gfDiv tb a b ≠ .noEntry := by
  by_cases ha : a = 0
  · rw [gfDiv, if_pos ha]
    simp
  by_cases hb : b = 0
  · rw [gfDiv, if_neg ha, if_pos hb]
    simp
  obtain ⟨i, hi, _⟩ := h.exists_logEntry_eq ha
  obtain ⟨j, hj, _⟩ := h.exists_logEntry_eq hb
  simp [gfDiv_of_logEntry ha hb hi hj]

/-- Every power is a byte under built tables (R93). -/
theorem BuiltFrom.exists_gfPow_eq (h : BuiltFrom p tb) (a : Byte) (n : Half) : ∃ v, gfPow tb a n = .value v := by
  by_cases hn : n = 0
  · exact ⟨1, if_pos hn⟩
  by_cases ha : a = 0
  · exact ⟨0, by rw [gfPow, if_neg hn, if_pos ha]⟩
  obtain ⟨i, hi, _⟩ := h.exists_logEntry_eq ha
  exact ⟨_, gfPow_of_logEntry hn ha hi⟩

end exponents

/-! ### No step stops under the invariant -/

/-- A field command goes on unless it computes an index without entry. -/
theorem answer_completes {r : EngineResult} (hr : r ≠ .noEntry) (s : State) : ∃ t, answer r s = .next t := by
  cases r with
  | value v => exact ⟨_, rfl⟩
  | divByZero => exact ⟨_, rfl⟩
  | noEntry => exact absurd rfl hr

/-- A command behind the test of `TV` goes on if it does so with the tables valid (R85). -/
theorem needTables_completes {run : Host.Outcome State Fault Refusal} (h : s.tv = true → ∃ t, run = .next t) :
    ∃ t, needTables s run = .next t := by
  obtain ⟨htv, heq⟩ | ⟨_, heq⟩ := needTables_eq s run
  · rw [heq]
    exact h htv
  · exact ⟨_, heq⟩

/-- Under the invariant every command completes (R92, R145). -/
theorem Inv.exec_completes (hs : Inv s) (i : Instr) : ∃ t, exec i s = .next t := by
  cases i with
  | scan | add | sub | rdsts => exact ⟨_, rfl⟩
  | build p =>
    simp only [exec, execBuild]
    split
    · exact ⟨_, rfl⟩
    · split <;> exact ⟨_, rfl⟩
  | mul a b =>
    refine needTables_completes fun htv => ?_
    obtain ⟨v, hv⟩ := (hs.builtFrom htv).exists_gfMul_eq a b
    exact answer_completes (by simp [hv]) s
  | div a b =>
    exact needTables_completes fun htv => answer_completes ((hs.builtFrom htv).gfDiv_ne_noEntry a b) s
  | pow a n =>
    refine needTables_completes fun htv => ?_
    obtain ⟨v, hv⟩ := (hs.builtFrom htv).exists_gfPow_eq a n
    exact answer_completes (by simp [hv]) s
  | inv a =>
    exact needTables_completes fun htv => answer_completes ((hs.builtFrom htv).gfDiv_ne_noEntry 1 a) s
  | rdexp e =>
    refine needTables_completes fun _ => ?_
    split <;> exact ⟨_, rfl⟩
  | rdlog a => exact needTables_completes fun _ => ⟨_, rfl⟩

/-- Under the invariant every word completes (R50, R145). -/
theorem Inv.runWord_completes (hs : Inv s) (w : Word) : ∃ t, runWord w s = .next t := by
  cases hd : decode w with
  | ok i => simpa only [runWord_ok hd] using hs.exec_completes i
  | error x => exact ⟨_, runWord_error hd s⟩

/-- Under the invariant a reset during a command completes (R137). -/
theorem Inv.abandonWord_completes (hs : Inv s) (w : Word) (taken : Nat) : ∃ t, abandonWord w taken s = .next t := by
  have hs' : Inv { s with responses := [] } := SameField.inv ⟨rfl, rfl, rfl⟩ hs
  obtain ⟨u, hu⟩ := hs'.runWord_completes w
  exact ⟨_, by rw [abandonWord, hu]⟩

/-- Under the invariant every step completes, whatever the host does (R145). -/
theorem Inv.step_completes (hs : Inv s) : ∃ t, step s = .next t := by
  have hs' : ∀ rest, Inv { s with inputs := rest } := fun _ => SameField.inv ⟨rfl, rfl, rfl⟩ hs
  rcases hin : s.inputs with _ | ⟨⟨w⟩ | _ | ⟨w, taken⟩, rest⟩
  · exact ⟨s, step_idle hin⟩
  · exact step_command hin ▸ (hs' rest).runWord_completes w
  · exact ⟨_, step_reset hin⟩
  · exact step_resetDuring hin ▸ (hs' rest).abandonWord_completes w taken

/-- A run of `k + 1` steps whose first gives a next state is the run of `k` steps from that state. -/
theorem run_succ_of_step (k : Nat) (h : step s = .next u) :
    Host.Core.run Sys2Proof.core (k + 1) s = Host.Core.run Sys2Proof.core k u := by
  have hstep : Sys2Proof.core.step s = .next u := h
  simp only [Host.Core.run, hstep]

/-- Settles O54, by induction on the number of steps: under the invariant a step completes and keeps the invariant. -/
theorem noRunStopsUnderTheInvariant : Obligations.NoRunStopsUnderTheInvariant := by
  intro k
  induction k with
  | zero => exact fun s hs => ⟨s, rfl, hs⟩
  | succ k ih =>
    intro s hs
    obtain ⟨u, hu⟩ := hs.step_completes
    rw [run_succ_of_step k hu]
    exact ih u (everyStepKeepsTheInvariant s u hs hu)

end Sys2Proof.Machine

/-! # The command word, the assembler and the response word (30_encoding.md)

Decoding and encoding are inverse; a word matches a row of the opcode table exactly when it is the word of a command with
the mnemonic of the row; and what a word answers is one beat, or SCAN's list and one beat. -/

namespace Sys2Proof.Machine

variable {s t : State} {w : Word} {i : Instr} {r q : Row}

/-! ### Decoding and encoding -/

/-- The opcode of an encoded command selects its format, whose reserved bits the encoder leaves zero (R46, R47, R49). -/
theorem decode_encode (i : Instr) : decode (encode i) = .ok i := by
  cases i with
  | scan | rdsts => decide
  | build | inv | rdexp | rdlog => simp [encode, decode, decodeF1]
  | add | sub | mul | div => simp [encode, decode, decodeF2]
  | pow => simp [encode, decode, decodeFN]

/-- Settles O1: every format reads back the fields that it writes. -/
theorem decodeOfEncodeIsTheCommand : Obligations.DecodeOfEncodeIsTheCommand := decode_encode

/-- Settles O2: in every format the opcode, the operands and the zero reserved bits are the whole word. -/
theorem encodeOfDecodeIsTheWord : Obligations.EncodeOfDecodeIsTheWord := fun _ _ => encode_of_decode

/-- Settles O6: each word is the encoding of its command. -/
theorem specExampleWordsDecode : Obligations.SpecExampleWordsDecode :=
  ⟨decode_encode (.build 0x1D), decode_encode .scan, decode_encode (.add 0x53 0xCA), decode_encode (.sub 0x00 0x07),
    decode_encode (.mul 0x03 0x07), decode_encode (.div 0x09 0x03), decode_encode (.pow 0x02 8),
    decode_encode (.pow 0xFF 65535), decode_encode (.inv 0x53), decode_encode (.rdexp 8), decode_encode (.rdlog 0x02),
    decode_encode .rdsts⟩

/-! ### The fields of a word as numbers (R45, R48) -/

/-- `OPC` is the number in bits 31:24. -/
theorem toNat_fieldOpc (w : Word) : (fieldOpc w).toNat = w.toNat / 2 ^ 24 := by
  have := w.isLt
  simp only [fieldOpc, BitVec.extractLsb'_toNat, Nat.shiftRight_eq_div_pow]
  omega

/-- `A` is the number in bits 23:16. -/
theorem toNat_fieldA (w : Word) : (fieldA w).toNat = w.toNat / 2 ^ 16 % 2 ^ 8 := by
  simp [fieldA, Nat.shiftRight_eq_div_pow]

/-- `B` is the number in bits 15:8. -/
theorem toNat_fieldB (w : Word) : (fieldB w).toNat = w.toNat / 2 ^ 8 % 2 ^ 8 := by
  simp [fieldB, Nat.shiftRight_eq_div_pow]

/-- `N` is the number in bits 15:0. -/
theorem toNat_fieldN (w : Word) : (fieldN w).toNat = w.toNat % 2 ^ 16 := by
  simp [fieldN]

/-- The operands of a command are the fields of the word that it is encoded as (R48). -/
theorem operandsAreFieldsOf_encode (i : Instr) : operandsAreFieldsOf i (encode i) := by
  cases i with
  | scan | rdsts => trivial
  | build | inv | rdexp | rdlog => simp only [operandsAreFieldsOf, encode, ← toNat_fieldA, fieldA_wordF1]
  | add | sub | mul | div =>
    simp only [operandsAreFieldsOf, encode, ← toNat_fieldA, ← toNat_fieldB, fieldA_wordF2, fieldB_wordF2, and_self]
  | pow =>
    simp only [operandsAreFieldsOf, encode, ← toNat_fieldA, ← toNat_fieldN, fieldA_wordFN, fieldN_wordFN, and_self]

/-- Settles O5: the word is that of the command, whose operands are its fields. -/
theorem operandsAreTheFieldsOfTheWord : Obligations.OperandsAreTheFieldsOfTheWord := by
  intro w i h
  rw [← encode_of_decode h]
  exact operandsAreFieldsOf_encode i

/-! ### The words that match a row of the opcode table -/

/-- A field that a mask covers is read from the masked word. -/
theorem field_of_masked {m v : Word} {k n : Nat} (hm : m.extractLsb' k n = BitVec.allOnes n) (h : w &&& m = v) :
    w.extractLsb' k n = v.extractLsb' k n := by
  rw [← h, BitVec.extractLsb'_and, hm, BitVec.and_allOnes]

section masked

variable {opc : Byte}

/-- A word that is only an opcode has zero in bits 15:0. -/
@[simp] theorem fieldN_byteAt (opc : Byte) : fieldN (byteAt opc 24) = 0 := by
  have h : byteAt opc 24 = wordF1 opc 0 := by simp [wordF1, byteAt]
  rw [h, fieldN_wordF1]

/-- A word that is only an opcode has zero in bits 7:0. -/
@[simp] theorem fieldZ_byteAt (opc : Byte) : fieldZ (byteAt opc 24) = 0 := by
  have h : byteAt opc 24 = wordF2 opc 0 0 := by simp [wordF2, byteAt]
  rw [h, fieldZ_wordF2]

/-- A word that the mask of F0 takes to the word of a command is that word. -/
theorem encode_of_maskedF0 {c : Instr} {v : Word} (hc : encode c = v) (h : w &&& 0xFFFFFFFF#32 = v) : encode c = w := by
  rw [hc, ← h]
  exact BitVec.and_allOnes

/-- A word of which the mask of F1 leaves an opcode is the word of a command with that opcode: bits 15:0 are zero. -/
theorem encode_of_maskedF1 {c : Byte → Instr} (hc : ∀ a, encode (c a) = wordF1 opc a)
    (h : w &&& 0xFF00FFFF#32 = byteAt opc 24) : encode (c (fieldA w)) = w := by
  have hopc : fieldOpc w = opc := (field_of_masked (by decide) h).trans (fieldOpc_byteAt opc)
  have hzero : fieldN w = 0 := (field_of_masked (by decide) h).trans (fieldN_byteAt opc)
  exact encode_of_decodeF1 hc (by rw [hopc]) (if_pos hzero)

/-- A word of which the mask of F2 leaves an opcode is the word of a command with that opcode: bits 7:0 are zero. -/
theorem encode_of_maskedF2 {c : Byte → Byte → Instr} (hc : ∀ a b, encode (c a b) = wordF2 opc a b)
    (h : w &&& 0xFF0000FF#32 = byteAt opc 24) : encode (c (fieldA w) (fieldB w)) = w := by
  have hopc : fieldOpc w = opc := (field_of_masked (by decide) h).trans (fieldOpc_byteAt opc)
  have hzero : fieldZ w = 0 := (field_of_masked (by decide) h).trans (fieldZ_byteAt opc)
  exact encode_of_decodeF2 hc (by rw [hopc]) (if_pos hzero)

/-- A word of which the mask of FN leaves an opcode is the word of a command with that opcode. -/
theorem encode_of_maskedFN {c : Byte → Half → Instr} (hc : ∀ a n, encode (c a n) = wordFN opc a n)
    (h : w &&& 0xFF000000#32 = byteAt opc 24) : encode (c (fieldA w) (fieldN w)) = w := by
  have hopc : fieldOpc w = opc := (field_of_masked (by decide) h).trans (fieldOpc_byteAt opc)
  exact encode_of_decodeFN hc (by rw [hopc]) rfl

end masked

/-- A word that matches a row is the word of a command with the mnemonic of the row (R51). -/
theorem exists_encode_of_masked (hr : r ∈ opcodeTable) (h : w &&& r.mask = r.pattern) :
    ∃ i : Instr, r.mnemonic = i.line.mnemonic ∧ encode i = w := by
  simp only [opcodeTable, List.mem_cons, List.not_mem_nil, or_false] at hr
  obtain rfl | rfl | rfl | rfl | rfl | rfl | rfl | rfl | rfl | rfl | rfl := hr
  · exact ⟨.build _, rfl, encode_of_maskedF1 (opc := 0x01) (fun _ => rfl) h⟩
  · exact ⟨.scan, rfl, encode_of_maskedF0 rfl h⟩
  · exact ⟨.add _ _, rfl, encode_of_maskedF2 (opc := 0x10) (fun _ _ => rfl) h⟩
  · exact ⟨.sub _ _, rfl, encode_of_maskedF2 (opc := 0x11) (fun _ _ => rfl) h⟩
  · exact ⟨.mul _ _, rfl, encode_of_maskedF2 (opc := 0x12) (fun _ _ => rfl) h⟩
  · exact ⟨.div _ _, rfl, encode_of_maskedF2 (opc := 0x13) (fun _ _ => rfl) h⟩
  · exact ⟨.pow _ _, rfl, encode_of_maskedFN (opc := 0x14) (fun _ _ => rfl) h⟩
  · exact ⟨.inv _, rfl, encode_of_maskedF1 (opc := 0x15) (fun _ => rfl) h⟩
  · exact ⟨.rdexp _, rfl, encode_of_maskedF1 (opc := 0x20) (fun _ => rfl) h⟩
  · exact ⟨.rdlog _, rfl, encode_of_maskedF1 (opc := 0x21) (fun _ => rfl) h⟩
  · exact ⟨.rdsts, rfl, encode_of_maskedF0 rfl h⟩

/-- Every command's word matches the row with its mnemonic, command by command (R51). -/
theorem encodesItsRow : ∀ i : Instr, Laws.EncodesItsRow.Statement i
  | .build p => Laws.EncodesItsRow.build p
  | .scan => Laws.EncodesItsRow.scan
  | .add a b => Laws.EncodesItsRow.add a b
  | .sub a b => Laws.EncodesItsRow.sub a b
  | .mul a b => Laws.EncodesItsRow.mul a b
  | .div a b => Laws.EncodesItsRow.div a b
  | .pow a n => Laws.EncodesItsRow.pow a n
  | .inv a => Laws.EncodesItsRow.inv a
  | .rdexp e => Laws.EncodesItsRow.rdexp e
  | .rdlog a => Laws.EncodesItsRow.rdlog a
  | .rdsts => Laws.EncodesItsRow.rdsts

/-- The word of a command matches the row with its mnemonic (R51). -/
theorem encode_masked (i : Instr) :
    ∃ r ∈ opcodeTable, encode i &&& r.mask = r.pattern ∧ r.mnemonic = i.line.mnemonic := by
  obtain ⟨r, hr, hm, hc⟩ := encodesItsRow i
  exact ⟨r, hr, by simpa [Row.covers] using hc, hm⟩

/-- A word is legal exactly when it matches a row of the opcode table (R50). -/
theorem legal_iff_exists_row (w : Word) : (∃ i, decode w = .ok i) ↔ ∃ r ∈ opcodeTable, w &&& r.mask = r.pattern := by
  constructor
  · rintro ⟨i, hi⟩
    obtain ⟨r, hr, h, _⟩ := encode_masked i
    exact ⟨r, hr, encode_of_decode hi ▸ h⟩
  · rintro ⟨r, hr, h⟩
    obtain ⟨i, _, rfl⟩ := exists_encode_of_masked hr h
    exact ⟨i, decode_encode i⟩

/-- Every mask covers bits 31:24 (R51). -/
theorem mask_covers_opcode : ∀ r ∈ opcodeTable, r.mask &&& 0xFF000000 = 0xFF000000 := by decide

/-- The opcodes of the rows differ pairwise (R51). -/
theorem row_eq_of_fieldOpc_eq :
    ∀ r ∈ opcodeTable, ∀ q ∈ opcodeTable, fieldOpc r.pattern = fieldOpc q.pattern → r = q := by decide

/-- A word has the opcode of the row that it matches (R51). -/
theorem fieldOpc_of_masked (hr : r ∈ opcodeTable) (h : w &&& r.mask = r.pattern) : fieldOpc w = fieldOpc r.pattern := by
  have hmask : ∀ r ∈ opcodeTable, fieldOpc r.mask = BitVec.allOnes 8 := by decide
  exact field_of_masked (hmask r hr) h

/-- A word matches at most one row (R51). -/
theorem row_unique (hr : r ∈ opcodeTable) (hq : q ∈ opcodeTable) (h : w &&& r.mask = r.pattern)
    (h' : w &&& q.mask = q.pattern) : r = q :=
  row_eq_of_fieldOpc_eq r hr q hq ((fieldOpc_of_masked hr h).symm.trans (fieldOpc_of_masked hq h'))

/-- Settles O4: the row is that of the command, and the word of a command decodes to it. -/
theorem decoderFindsTheOneMatchingRow : Obligations.DecoderFindsTheOneMatchingRow := by
  refine ⟨mask_covers_opcode, row_eq_of_fieldOpc_eq, fun w r hr q hq h h' => row_unique hr hq h h', fun w i => ⟨?_, ?_⟩⟩
  · intro hi
    obtain rfl := encode_of_decode hi
    obtain ⟨r, hr, h, hm⟩ := encode_masked i
    exact ⟨r, hr, h, hm, rfl⟩
  · rintro ⟨_, _, _, _, rfl⟩
    exact decode_encode i

/-- A presented word that matches no row raises `E_ILLEGAL` (R50). -/
theorem step_illegal {rest : List Input} (hin : s.inputs = .command w :: rest)
    (hw : ∀ r ∈ opcodeTable, w &&& r.mask ≠ r.pattern) : step s = .next (raise .illegal { s with inputs := rest }) := by
  cases hd : decode w with
  | ok i =>
    obtain ⟨r, hr, h⟩ := (legal_iff_exists_row w).1 ⟨i, hd⟩
    exact absurd h (hw r hr)
  | error x => rw [step_command hin, runWord_error hd]

/-- Settles O3: no row has an unassigned opcode or one of the two words, and no row means no decoding. -/
theorem illegalWordsRaiseIllegal : Obligations.IllegalWordsRaiseIllegal := by
  have hassigned : ∀ r ∈ opcodeTable,
      fieldOpc r.pattern ∈ [0x01, 0x02, 0x10, 0x11, 0x12, 0x13, 0x14, 0x15, 0x20, 0x21, 0x22] := by decide
  refine ⟨legal_iff_exists_row, fun w hopc r hr h => hopc ?_, by decide, fun s w rest hin hw => ?_⟩
  · rw [fieldOpc_of_masked hr h]
    exact hassigned r hr
  · exact ⟨Config.errorData s.draws, step_illegal hin hw, by simp [Beat.word, Status.code, Err.code]⟩

/-! ### The assembler's lines (R46, R58) -/

/-- An integer fits a byte field exactly when it is the number of a byte. -/
theorem fitsByte_iff (v : Int) : fitsByte v = true ↔ ∃ a : Byte, v = a.toNat := by
  simp only [fitsByte, Bool.and_eq_true, decide_eq_true_eq]
  constructor
  · intro h
    exact ⟨BitVec.ofNat 8 v.toNat, by rw [BitVec.toNat_ofNat]; omega⟩
  · rintro ⟨a, rfl⟩
    have := a.isLt
    omega

/-- An integer fits the field `N` exactly when it is the number of a half word. -/
theorem fitsPower_iff (v : Int) : fitsPower v = true ↔ ∃ n : Half, v = n.toNat := by
  simp only [fitsPower, Bool.and_eq_true, decide_eq_true_eq]
  constructor
  · intro h
    exact ⟨BitVec.ofNat 16 v.toNat, by rw [BitVec.toNat_ofNat]; omega⟩
  · rintro ⟨n, rfl⟩
    have := n.isLt
    omega

/-- The line of a command has the operands of its format, each in its field. -/
theorem wellFormed_line (i : Instr) : i.line.wellFormed = true := by
  have hbyte (a : Byte) : fitsByte a.toNat = true := (fitsByte_iff _).2 ⟨a, rfl⟩
  have hpower (n : Half) : fitsPower n.toNat = true := (fitsPower_iff _).2 ⟨n, rfl⟩
  cases i with
  | scan | rdsts => rfl
  | build | inv | rdexp | rdlog | add | sub | mul | div => simp [Line.wellFormed, Instr.line, Mnemonic.format, hbyte]
  | pow => simp [Line.wellFormed, Instr.line, Mnemonic.format, hbyte, hpower]

/-- The line of a command assembles to it. -/
theorem assembleLine_line (i : Instr) : assembleLine i.line = some i := by
  rw [assembleLine, if_pos (wellFormed_line i)]
  cases i <;> simp [Instr.line]

section wellFormed

variable {m : Mnemonic} {vs : List Int}

/-- A well-formed line of format F0 has no operand. -/
theorem operands_of_f0 (hm : m.format = .f0) (h : (Line.mk m vs).wellFormed = true) : vs = [] := by
  match vs with
  | [] => rfl
  | _ :: _ => simp [Line.wellFormed, hm] at h

/-- A well-formed line of format F1 has one byte as operand. -/
theorem operands_of_f1 (hm : m.format = .f1) (h : (Line.mk m vs).wellFormed = true) :
    ∃ a : Byte, vs = [(a.toNat : Int)] := by
  match vs with
  | [v] => simpa [Line.wellFormed, hm, fitsByte_iff] using h
  | [] | _ :: _ :: _ => simp [Line.wellFormed, hm] at h

/-- A well-formed line of format F2 has two bytes as operands. -/
theorem operands_of_f2 (hm : m.format = .f2) (h : (Line.mk m vs).wellFormed = true) :
    ∃ a b : Byte, vs = [(a.toNat : Int), (b.toNat : Int)] := by
  match vs with
  | [v, v'] => simpa [Line.wellFormed, hm, fitsByte_iff] using h
  | [] | [_] | _ :: _ :: _ :: _ => simp [Line.wellFormed, hm] at h

/-- A well-formed line of format FN has a byte and a half word as operands. -/
theorem operands_of_fn (hm : m.format = .fn) (h : (Line.mk m vs).wellFormed = true) :
    ∃ (a : Byte) (n : Half), vs = [(a.toNat : Int), (n.toNat : Int)] := by
  match vs with
  | [v, v'] => simpa [Line.wellFormed, hm, fitsByte_iff, fitsPower_iff] using h
  | [] | [_] | _ :: _ :: _ :: _ => simp [Line.wellFormed, hm] at h

end wellFormed

/-- Every well-formed line is the line of a command. -/
theorem exists_line_eq {l : Line} (h : l.wellFormed = true) : ∃ i : Instr, l = i.line := by
  obtain ⟨m, vs⟩ := l
  cases m with
  | build => obtain ⟨p, rfl⟩ := operands_of_f1 rfl h; exact ⟨.build p, rfl⟩
  | scan => obtain rfl := operands_of_f0 rfl h; exact ⟨.scan, rfl⟩
  | add => obtain ⟨a, b, rfl⟩ := operands_of_f2 rfl h; exact ⟨.add a b, rfl⟩
  | sub => obtain ⟨a, b, rfl⟩ := operands_of_f2 rfl h; exact ⟨.sub a b, rfl⟩
  | mul => obtain ⟨a, b, rfl⟩ := operands_of_f2 rfl h; exact ⟨.mul a b, rfl⟩
  | div => obtain ⟨a, b, rfl⟩ := operands_of_f2 rfl h; exact ⟨.div a b, rfl⟩
  | pow => obtain ⟨a, n, rfl⟩ := operands_of_fn rfl h; exact ⟨.pow a n, rfl⟩
  | inv => obtain ⟨a, rfl⟩ := operands_of_f1 rfl h; exact ⟨.inv a, rfl⟩
  | rdexp => obtain ⟨e, rfl⟩ := operands_of_f1 rfl h; exact ⟨.rdexp e, rfl⟩
  | rdlog => obtain ⟨a, rfl⟩ := operands_of_f1 rfl h; exact ⟨.rdlog a, rfl⟩
  | rdsts => obtain rfl := operands_of_f0 rfl h; exact ⟨.rdsts, rfl⟩

/-- An ill-formed line assembles to nothing (R58). -/
theorem assembleLine_of_illFormed {l : Line} (h : l.wellFormed = false) : assembleLine l = none := by
  simp [assembleLine, h]

/-- Settles O7: the well-formed lines are those of the commands. -/
theorem assemblerLinesAreTheCommands : Obligations.AssemblerLinesAreTheCommands := by
  refine ⟨fun i => ⟨wellFormed_line i, assembleLine_line i⟩, fun l i hi => ?_, fun l => assembleLine_of_illFormed⟩
  cases hl : l.wellFormed with
  | false => simp [assembleLine_of_illFormed hl] at hi
  | true =>
    obtain ⟨j, rfl⟩ := exists_line_eq hl
    obtain rfl : j = i := by simpa [assembleLine_line] using hi
    rfl

/-! ### The beats of a command (R52 to R54) -/

/-- A word transfers SCAN's beats if it is SCAN, and one final beat if it is not (R54). -/
theorem runWord_beats (h : runWord w s = .next t) :
    (decode w = .ok .scan ∧ t.responses = s.responses ++ scanBeats validPolynomials) ∨
    (decode w ≠ .ok .scan ∧ ∃ b : Beat, b.status.isFinal = true ∧ t.responses = s.responses ++ [b]) := by
  obtain ⟨i, hd, hi⟩ | ⟨x, hd, rfl⟩ := runWord_next h
  · rw [hd]
    obtain ⟨e, he, rfl⟩ | ⟨_, _, hscan, v, rfl⟩ | ⟨rfl, rfl⟩ | ⟨p, L, rfl, _, _, _, rfl⟩ := exec_cases hi
    · refine .inr ⟨?_, ⟨.err e, _⟩, rfl, rfl⟩
      rintro ⟨⟩
      cases he
    · exact .inr ⟨by simpa using hscan, ⟨.ok, v⟩, rfl, rfl⟩
    · exact .inl ⟨rfl, rfl⟩
    · exact .inr ⟨by simp, ⟨.ok, 0⟩, rfl, rfl⟩
  · exact .inr ⟨by simp [hd], ⟨.err .illegal, _⟩, rfl, rfl⟩

/-- Settles O48: SCAN's beats are sixteen `ITEM` beats and an `OK` beat with their number. -/
theorem everyCommandEndsInOneFinalBeat : Obligations.EveryCommandEndsInOneFinalBeat := by
  intro w s t h
  obtain ⟨hd, ht⟩ | ⟨hd, b, hb, ht⟩ := runWord_beats h
  · rw [validPolynomials_eq, scanBeats, ← List.append_assoc] at ht
    refine ⟨_, _, ht, rfl, ?_, fun hne => absurd hd hne, fun _ => ⟨rfl, rfl⟩, fun he => by cases he⟩
    simp
  · exact ⟨[], b, by simpa using ht, hb, by simp, fun _ => rfl, fun hscan => absurd hscan hd, fun _ => rfl⟩

/-- The response word has the layout of an FN word: `ST` in the place of `OPC`, zero in that of `A`, `DATA` in that of `N`
(R45, R52). -/
theorem beatWord_eq_wordFN (b : Beat) : b.word = wordFN b.status.code 0 b.data := by
  simp [Beat.word, wordFN, byteAt]

/-- Bit 7 of a status code is 1 exactly in the errors (R53). -/
theorem isError_iff_code_bit7 (st : Status) : st.isError = true ↔ st.code.getLsbD 7 = true := by
  cases st with
  | ok | item => decide
  | err e => cases e <;> decide

/-- `ITEM` is the one status that is not final (R53). -/
theorem isFinal_eq_false_iff (st : Status) : st.isFinal = false ↔ st = .item := by
  cases st <;> simp [Status.isFinal]

/-- Settles O57: the fields of the response word are those of an FN word. -/
theorem responseWordLayout : Obligations.ResponseWordLayout := by
  refine ⟨fun b => ?_, isError_iff_code_bit7, isFinal_eq_false_iff, rfl, rfl, rfl, rfl, rfl, rfl, rfl, rfl⟩
  rw [← toNat_fieldOpc, ← toNat_fieldA, ← toNat_fieldN, beatWord_eq_wordFN, fieldOpc_wordFN, fieldA_wordFN,
    fieldN_wordFN]
  exact ⟨rfl, rfl, rfl⟩

end Sys2Proof.Machine

/-! # The Table Generator (40_table_generator.md)

The exponent table is the orbit of 0x01 under doubling. A polynomial is valid exactly when that orbit has period 255, and
then it runs once through the nonzero bytes. -/

namespace Sys2Proof.Machine

variable {p v w : Byte} {T : ExpTable} {s : State}

/-! ### Doubling (R65) -/

/-- A shift left by one is twice the number, cut to a byte (R65). -/
theorem shiftLeft_one_eq (v : Byte) : v <<< 1 = BitVec.ofNat 8 (2 * v.toNat) := by
  apply BitVec.eq_of_toNat_eq
  simp [Nat.shiftLeft_eq, Nat.mul_comm]

/-- Without bit 7 doubling is the shift (R65). -/
theorem double_of_lt (p : Byte) (hv : v.toNat < 128) : double v p = BitVec.ofNat 8 (2 * v.toNat) := by
  have hmsb : v.msb = false := by simpa [BitVec.msb_eq_decide] using hv
  simp [double, hmsb, shiftLeft_one_eq]

/-- With bit 7 the polynomial is added to what the shift leaves in the byte (R65). -/
theorem double_of_ge (p : Byte) (hv : 128 ≤ v.toNat) :
    double v p = BitVec.ofNat 8 (2 * v.toNat - 256) ^^^ p := by
  have hmsb : v.msb = true := by simpa [BitVec.msb_eq_decide] using hv
  have hcut : BitVec.ofNat 8 (2 * v.toNat) = BitVec.ofNat 8 (2 * v.toNat - 256) := by
    apply BitVec.eq_of_toNat_eq
    simp only [BitVec.toNat_ofNat]
    omega
  simp [double, hmsb, shiftLeft_one_eq, hcut]

/-- Zero doubles to zero (R65). -/
@[simp] theorem double_zero (p : Byte) : double 0 p = 0 := rfl

/-- Bit 7 alone doubles to the polynomial (R65). -/
@[simp] theorem double_eighty (p : Byte) : double 0x80 p = p := by
  simpa using double_of_ge (v := 0x80) p (by decide)

/-- Settles O14, by the value of bit 7; without a polynomial the double is the shift. -/
theorem doubleShiftsAndReduces : Obligations.DoubleShiftsAndReduces := by
  intro v p
  refine ⟨double_of_lt p, double_of_ge p, double_zero p, double_eighty p, ?_⟩
  apply BitVec.eq_of_toNat_eq
  simp [double, shiftLeft_one_eq]

/-- Settles O15: the shift is multiplication by `x`, and the XOR takes the reduction polynomial away. -/
theorem doubleIsMultiplicationByX : Obligations.DoubleIsMultiplicationByX := reductionPoly_dvd_double

/-! ### The exponent table (R66, R70) -/

/-- The first eight entries are the powers of two (R66). -/
theorem buildExponentTable_of_lt_eight (p : Byte) {e : Nat} (he : e < 8) :
    (buildExponentTable p)[e] = BitVec.ofNat 8 (2 ^ e) := by
  induction e with
  | zero => rfl
  | succ e ih =>
    have hpow : 2 ^ e < 2 ^ 7 := Nat.pow_lt_pow_right (by decide) (by omega)
    have hnat : (BitVec.ofNat 8 (2 ^ e)).toNat = 2 ^ e := Nat.mod_eq_of_lt (by omega)
    rw [buildExponentTable_succ p (by omega), ih (by omega), double_of_lt p (by omega), hnat, Nat.pow_succ']

/-- Entry 8 is the polynomial: entry 7 is 0x80, whose double it is (R66). -/
@[simp] theorem buildExponentTable_eight (p : Byte) : (buildExponentTable p)[8] = p := by
  rw [buildExponentTable_succ p (by decide), buildExponentTable_of_lt_eight p (by decide)]
  exact double_eighty p

/-- Settles O16, by what each entry is. -/
theorem exponentTableIsBuiltByDoubling : Obligations.ExponentTableIsBuiltByDoubling := fun p =>
  ⟨buildExponentTable_zero p, fun _ => buildExponentTable_succ p, fun _ => buildExponentTable_of_lt_eight p,
    buildExponentTable_eight p⟩

/-! ### The gate (R67, R68) -/

/-- The loop passes entries that are all different when their slots are unset (R67). -/
theorem exists_fillLog_of_nodup {vs : List Byte} {L : ScratchLog} (e : Nat) (hvs : vs.Nodup)
    (hL : ∀ v ∈ vs, slot L v.toNat = sentinel) : ∃ M, fillLog vs e L = some M := by
  induction vs generalizing e L with
  | nil => exact ⟨L, rfl⟩
  | cons x rest ih =>
    obtain ⟨hx, hrest⟩ := List.nodup_cons.1 hvs
    rw [fillLog, if_pos (hL x (by simp))]
    refine ih (e + 1) hrest fun v hv => ?_
    have hne : x.toNat ≠ v.toNat := fun hxv => hx (BitVec.eq_of_toNat_eq hxv ▸ hv)
    rw [slot_setSlot_other _ _ hne]
    exact hL v (List.mem_cons_of_mem x hv)

/-- From an empty scratch the loop passes entries that are all different (R67). -/
theorem exists_fillLog_emptyScratch {vs : List Byte} (hvs : vs.Nodup) : ∃ M, fillLog vs 0 emptyScratch = some M :=
  exists_fillLog_of_nodup 0 hvs fun v _ => slot_emptyScratch v.isLt

/-- The loop fails on entries of which two are equal: their slot would hold both exponents (R67). -/
theorem fillLog_eq_none_of_repeat {vs : List Byte} {L : ScratchLog} (hlen : vs.length ≤ 65535) {i j : Nat}
    (hi : i < vs.length) (hj : j < vs.length) (hij : i ≠ j) (h : vs[i] = vs[j]) : fillLog vs 0 L = none := by
  rw [Option.eq_none_iff_forall_ne_some]
  intro M hM
  have hslot := slot_getElem_of_fillLog hM (by omega) i hi
  rw [h, slot_getElem_of_fillLog hM (by omega) j hj] at hslot
  have hnat := congrArg BitVec.toNat hslot
  simp at hnat
  omega

/-- A logarithm table can be built from entries that are all different (R67). -/
theorem exists_log_of_injective (hT : Function.Injective fun e : Fin 255 => T[e.val]) :
    ∃ L, buildLogarithmTable T = some L := by
  have hnodup : T.toList.Nodup := by
    rw [List.nodup_iff_injective_getElem]
    intro e f hef
    have := @hT ⟨e.val, by simpa using e.isLt⟩ ⟨f.val, by simpa using f.isLt⟩ (by simpa using hef)
    simpa [Fin.ext_iff] using this
  obtain ⟨M, hM⟩ := exists_fillLog_emptyScratch hnodup
  exact ⟨scratchTable M, by simp [buildLogarithmTable, hM]⟩

/-- No logarithm table can be built from an exponent table with a repeated entry (R67). -/
theorem log_eq_none_of_repeat {e f : Fin 255} (hef : e ≠ f) (h : T[e.val] = T[f.val]) :
    buildLogarithmTable T = none := by
  rw [buildLogarithmTable, Option.map_eq_none_iff]
  exact fillLog_eq_none_of_repeat (by simp) (by simp) (by simp) (Fin.val_ne_of_ne hef) (by simpa using h)

/-- Of the 256 bytes, 255 different ones leave out exactly one. -/
theorem existsUnique_not_entry (hT : Function.Injective fun e : Fin 255 => T[e.val]) :
    ∃! v : Byte, ∀ e : Fin 255, T[e.val] ≠ v := by
  have hcard : (Finset.univ.image fun e : Fin 255 => T[e.val])ᶜ.card = 1 := by
    rw [Finset.card_compl, Finset.card_image_of_injective _ hT, ← FinEnum.card_eq_fintypeCard, FinEnum.card_bitVec,
      Finset.card_univ, Fintype.card_fin]
    decide
  simpa using Finset.card_eq_one_iff_existsUnique.1 hcard

/-- A slot keeps the sentinel exactly when no entry names it (R67). -/
theorem logEntry_eq_sentinel_iff {tb : Tables} (h : buildLogarithmTable tb.exp = some tb.log) :
    logEntry tb v = sentinel ↔ ∀ e, expEntry tb e ≠ v := by
  refine ⟨?_, logEntry_of_not_entry h⟩
  rintro hv e rfl
  rw [logEntry_expEntry h e] at hv
  exact ofNat_ne_sentinel (by omega) hv

/-- Settles O17: the loop passes exactly the tables without a repeated entry, and leaves alone the slot of the one byte that
is no entry. -/
theorem logarithmTableInvertsOrFails : Obligations.LogarithmTableInvertsOrFails := by
  refine fun T => ⟨fun ⟨e, f, hef, h⟩ => log_eq_none_of_repeat hef.ne h, fun hdiff => ?_⟩
  have hT : Function.Injective fun e : Fin 255 => T[e.val] := .of_lt_imp_ne hdiff
  obtain ⟨L, hL⟩ := exists_log_of_injective hT
  have hunset : ∀ v, logEntry ⟨T, L⟩ v = 0xFFFF ↔ ∀ e : Fin 255, T[e.val] ≠ v := fun v =>
    logEntry_eq_sentinel_iff (tb := ⟨T, L⟩) hL
  refine ⟨L, hL, logEntry_expEntry (tb := ⟨T, L⟩) hL, fun v => (hunset v).2, ?_⟩
  simpa only [hunset] using existsUnique_not_entry hT

/-- A polynomial is valid exactly when its exponent table repeats no entry (R67, R68). -/
theorem valid_iff_injective (p : Byte) :
    valid p = true ↔ Function.Injective fun e : Fin 255 => (buildExponentTable p)[e.val] := by
  rw [valid, Option.isSome_iff_exists]
  refine ⟨fun ⟨L, hL⟩ => ?_, exists_log_of_injective⟩
  exact expEntry_injective (tb := ⟨buildExponentTable p, L⟩) hL

/-- A polynomial whose exponent table repeats an entry is not valid (R67, R68). -/
theorem valid_eq_false_of_repeat {e f : Fin 255} (hef : e ≠ f)
    (h : (buildExponentTable p)[e.val] = (buildExponentTable p)[f.val]) : valid p = false := by
  simp [valid, log_eq_none_of_repeat hef h]

/-- A valid polynomial has tables (R68). -/
theorem exists_builtFrom_of_valid (h : valid p = true) : ∃ L, BuiltFrom p ⟨buildExponentTable p, L⟩ := by
  obtain ⟨L, hL⟩ := Option.isSome_iff_exists.1 h
  exact ⟨L, rfl, hL⟩

/-- Settles O19: 0x00 follows 0x80 under the polynomial 0x00, at exponent 8 and again at exponent 9. -/
theorem zeroAppearsOnlyUnderPolynomialZero : Obligations.ZeroAppearsOnlyUnderPolynomialZero := by
  have hten : (buildExponentTable 0).toList.take 10 = [1, 2, 4, 8, 16, 32, 64, 128, 0, 0] := rfl
  have hnine : (buildExponentTable 0).toList.take 9 = [1, 2, 4, 8, 16, 32, 64, 128, 0] := rfl
  refine ⟨fun p => ⟨fun ⟨e, he⟩ => ?_, ?_⟩, ?_, ?_⟩
  · by_contra hp
    exact buildExponentTable_ne_zero hp e.isLt he
  · rintro rfl
    exact ⟨8, buildExponentTable_eight 0⟩
  · obtain ⟨M, hM⟩ := exists_fillLog_emptyScratch (vs := [1, 2, 4, 8, 16, 32, 64, 128, 0]) (by decide)
    exact ⟨M, hnine ▸ hM, slot_getElem_of_fillLog hM (by decide) 8 (by decide)⟩
  · rw [hten]
    exact fillLog_eq_none_of_repeat (i := 8) (j := 9) (by decide) (by decide) (by decide) (by decide) rfl

/-- Settles O20, by the evaluation of SCAN's search; the polynomials it rules out are those not listed. -/
theorem exactlySixteenPolynomialsAreValid : Obligations.ExactlySixteenPolynomialsAreValid := by
  have hentry : (buildExponentTable 0x1B)[51] = 0x01 := by decide +kernel
  refine ⟨valid_iff_listed, rfl, fun p hp => ?_, valid_eq_false_of_repeat (e := 51) (f := 0) (by decide) hentry, hentry⟩
  have hodd : ∀ q ∈ listedPolynomials, q.toNat % 2 = 1 := by decide
  rw [← Bool.not_eq_true, valid_iff_listed]
  intro hlisted
  have := hodd p hlisted
  omega

/-! ### The orbit of 0x01 under doubling (R2, R69) -/

/-- A byte that the reduction polynomial divides is zero: its degree is too small (R11). -/
theorem eq_zero_of_reductionPoly_dvd (h : reductionPoly p ∣ toPoly v) : v = 0 := by
  apply toPoly_eq_zero
  by_contra hv
  have hdeg := Polynomial.degree_le_of_dvd h hv
  rw [Polynomial.degree_eq_natDegree (reductionPoly_monic p).ne_zero, reductionPoly_natDegree] at hdeg
  exact absurd (toPoly_degree_lt v) (not_lt.2 hdeg)

/-- Bytes that are congruent modulo the reduction polynomial are equal (R97). -/
theorem eq_of_reductionPoly_dvd_sub (h : reductionPoly p ∣ toPoly v - toPoly w) : v = w := by
  rw [CharTwo.sub_eq_add, ← toPoly_xor] at h
  exact BitVec.xor_eq_zero_iff.1 (eq_zero_of_reductionPoly_dvd h)

/-- 0x01 doubled `n` times, past the end of the table too, is `x^n` modulo the reduction polynomial (R26, R65). -/
theorem reductionPoly_dvd_iterate (p : Byte) (n : Nat) :
    reductionPoly p ∣ Polynomial.X ^ n - toPoly ((double · p)^[n] 1#8) := by
  induction n with
  | zero => simp
  | succ n ih =>
    have hx := ih.mul_left Polynomial.X
    have hd := reductionPoly_dvd_double ((double · p)^[n] 1#8) p
    rw [Function.iterate_succ_apply']
    convert dvd_add hx hd using 1
    ring

/-- 0x01 doubled `n` times is the byte congruent to `x^n` (R26, R97). -/
theorem iterate_double_eq_iff (p : Byte) (n : Nat) (v : Byte) :
    (double · p)^[n] 1#8 = v ↔ reductionPoly p ∣ Polynomial.X ^ n - toPoly v := by
  have hn := reductionPoly_dvd_iterate p n
  refine ⟨fun h => h ▸ hn, fun h => eq_of_reductionPoly_dvd_sub (p := p) ?_⟩
  simpa using dvd_sub h hn

/-- Bit 0 of a double is that of the polynomial, if the polynomial was added, else 0 (R65). -/
theorem double_bit0 (v p : Byte) : (double v p).getLsbD 0 = (v.msb && p.getLsbD 0) := by
  cases h : v.msb <;> simp [double, h]

/-- Under a polynomial with the term 1 doubling is injective: bit 0 of the double tells which bit was shifted out. -/
theorem double_injective (hp : p.getLsbD 0 = true) : Function.Injective (double · p) := by
  intro v w (h : double v p = double w p)
  have hmsb : v.msb = w.msb := by
    have hbit := congrArg (·.getLsbD 0) h
    simpa only [double_bit0, hp, Bool.and_true] using hbit
  have hshift : v <<< 1 = w <<< 1 := by
    unfold double at h
    cases hw : w.msb <;> simpa [hmsb, hw] using h
  have hnat := congrArg BitVec.toNat hshift
  rw [BitVec.msb_eq_decide, BitVec.msb_eq_decide, decide_eq_decide] at hmsb
  simp only [BitVec.toNat_shiftLeft, Nat.shiftLeft_eq] at hnat
  apply BitVec.eq_of_toNat_eq
  omega

/-- A valid polynomial has the term 1: else 0x01 would be the only odd entry (R69). -/
theorem bit0_of_valid (h : valid p = true) : p.getLsbD 0 = true := by
  obtain ⟨L, hL⟩ := exists_builtFrom_of_valid h
  obtain ⟨⟨e, he⟩, hthree⟩ := hL.exists_expEntry_eq (a := 3) (by decide)
  rw [hL.expEntry_eq] at hthree
  cases e with
  | zero => cases hthree
  | succ e =>
    have hbit := double_bit0 (buildExponentTable p)[e] p
    rw [← buildExponentTable_succ p he, hthree] at hbit
    exact (Bool.and_eq_true_iff.1 hbit.symm).2

/-- Under a valid polynomial the last entry doubles to 0x01: its double is an entry, and, doubling being injective, none but
the first (R69). -/
theorem iterate_double_of_valid (h : valid p = true) : (double · p)^[255] 1#8 = 1 := by
  have hinj := double_injective (bit0_of_valid h)
  have hzero : (double · p)^[255] 0 = 0 := Function.iterate_fixed (double_zero p) 255
  have hne : (double · p)^[255] 1#8 ≠ 0 := fun h0 => absurd (hinj.iterate 255 (h0.trans hzero.symm)) (by decide)
  obtain ⟨L, hL⟩ := exists_builtFrom_of_valid h
  obtain ⟨j, hj⟩ := hL.exists_expEntry_eq hne
  rw [hL.expEntry_eq, buildExponentTable_getElem p j.isLt] at hj
  have hback : (double · p)^[255 - j] 1#8 = 1 := Function.iterate_cancel hinj hj.symm
  by_cases hj0 : j.val = 0
  · rwa [hj0] at hback
  · have hlt : 255 - j.val < 255 := by omega
    rw [← buildExponentTable_getElem p hlt, ← buildExponentTable_zero p] at hback
    have := (valid_iff_injective p).1 h (a₁ := ⟨255 - j, hlt⟩) (a₂ := 0) hback
    simp [Fin.ext_iff] at this
    omega

/-- A polynomial is valid exactly when 0x01 returns to itself after 255 doublings and not before (R69). -/
theorem valid_iff_period (p : Byte) :
    valid p = true ↔
      (double · p)^[255] 1#8 = 1 ∧ ∀ k : Nat, 0 < k → k < 255 → (double · p)^[k] 1#8 ≠ 1 := by
  refine ⟨fun h => ⟨iterate_double_of_valid h, fun k hk hlt hone => ?_⟩, fun ⟨hreturn, hnot⟩ => ?_⟩
  · rw [← buildExponentTable_getElem p hlt] at hone
    have hk0 := (valid_iff_injective p).1 h (a₁ := ⟨k, hlt⟩) (a₂ := 0) hone
    simp [Fin.ext_iff] at hk0
    omega
  · refine (valid_iff_injective p).2 (.of_lt_imp_ne fun e f hef heq => ?_)
    rw [buildExponentTable_getElem p e.isLt, buildExponentTable_getElem p f.isLt] at heq
    have hon := congrArg (double · p)^[255 - f] heq
    rw [← Function.iterate_add_apply, ← Function.iterate_add_apply, Nat.sub_add_cancel f.isLt.le, hreturn] at hon
    exact hnot _ (by omega) (by have : e.val < f.val := hef; omega) hon

/-- Settles O21: the byte congruent to `x^k` is 0x01 doubled `k` times. -/
theorem validExactlyWhenXHasOrder255 : Obligations.ValidExactlyWhenXHasOrder255 := by
  intro p
  have hpow (k : Nat) : (double · p)^[k] 1#8 = 1 ↔ reductionPoly p ∣ Polynomial.X ^ k - 1 := by
    rw [iterate_double_eq_iff, show toPoly 1 = 1 from toPoly_one]
  exact (valid_iff_period p).trans (and_congr (hpow 255) (forall₃_congr fun k _ _ => not_congr (hpow k)))

/-- Settles O18: the table of a valid polynomial is one period of doubling, and a table that holds each nonzero byte once
repeats none. -/
theorem gateDecidesTheFullCycle : Obligations.GateDecidesTheFullCycle := by
  refine ⟨fun p => ⟨fun h => ?_, fun ⟨honce, hnonzero, _⟩ => ?_⟩, fun p L hL => ?_⟩
  · obtain ⟨L, hL⟩ := exists_builtFrom_of_valid h
    refine ⟨fun v hv => ?_, fun e => hL.expEntry_ne_zero e, ?_⟩
    · obtain ⟨e, he⟩ := hL.exists_expEntry_eq hv
      exact ⟨e, he, fun f hf => expEntry_injective hL.log (hf.trans he.symm)⟩
    · rw [buildExponentTable_getElem]
      exact (Function.iterate_succ_apply' _ _ _).symm.trans (iterate_double_of_valid h)
  · exact (valid_iff_injective p).2 fun e f hef => (honce _ (hnonzero f)).unique hef rfl
  · exact BuiltFrom.logEntry_zero (p := p) (tb := ⟨buildExponentTable p, L⟩) ⟨rfl, hL⟩

/-! ### BUILD and SCAN (R72 to R76, R79) -/

/-- BUILD of a valid polynomial while `TV` = 0 commits its tables and answers `OK(0x0000)` (R72). -/
theorem exec_build_of_valid (htv : s.tv = false) (hp : valid p = true) :
    ∃ L, buildLogarithmTable (buildExponentTable p) = some L ∧
      exec (.build p) s = .next (respond 0 (commitTables p (buildExponentTable p) L s)) := by
  obtain ⟨L, hL⟩ := Option.isSome_iff_exists.1 hp
  exact ⟨L, hL, by simp [exec, execBuild, htv, hL]⟩

/-- BUILD while `TV` = 1 raises `E_BUILT` (R74). -/
theorem raises_built (p : Byte) (htv : s.tv = true) : Raises (.build p) s .built :=
  raises_of_errorOf (by simp [errorOf, htv])

/-- BUILD of a polynomial that is not valid raises `E_BADPOLY` while `TV` = 0 (R73). -/
theorem raises_badPoly (htv : s.tv = false) (hp : valid p = false) : Raises (.build p) s .badPoly :=
  raises_of_errorOf (by simp [errorOf, htv, hp])

/-- Polynomial 0x1D is valid (R79). -/
theorem valid_standard : valid 0x1D = true := (valid_iff_listed 0x1D).2 (by decide)

/-- Settles O22, clause by clause; the logarithm of 0x03 under 0x1D is the exponent at which the table holds it. -/
theorem buildCommitsOrRaises : Obligations.BuildCommitsOrRaises := by
  refine fun p s => ⟨rfl, raises_built p, raises_badPoly, fun htv hp => ?_, fun htv => ?_⟩
  · obtain ⟨L, hL, hexec⟩ := exec_build_of_valid htv hp
    exact ⟨_, L, hL, rfl, hexec, inv_of_builtFrom rfl ⟨rfl, hL⟩, rfl⟩
  · obtain ⟨L, hL, hexec⟩ := exec_build_of_valid htv valid_standard
    have hthree : expEntry ⟨buildExponentTable 0x1D, L⟩ 25 = 0x03 := by
      change (buildExponentTable 0x1D)[25] = 0x03
      decide +kernel
    exact ⟨_, hexec, rfl, buildExponentTable_eight 0x1D,
      hthree ▸ logEntry_expEntry (tb := ⟨buildExponentTable 0x1D, L⟩) hL 25⟩

/-- Settles O23: SCAN's list is R77's. -/
theorem scanReportsTheSixteenAndChangesNothing : Obligations.ScanReportsTheSixteenAndChangesNothing := by
  intro s
  have hexec : exec .scan s = .next (emit (scanBeats listedPolynomials) s) := validPolynomials_eq ▸ rfl
  exact ⟨_, hexec, rfl, by decide, by decide⟩

/-- Settles O24: entry 8 is the polynomial, which under 0x01 is entry 0 and under 0x02 entry 1. -/
theorem standardAcceptedEarlyRepeatRejected : Obligations.StandardAcceptedEarlyRepeatRejected := by
  intro s htv
  have hone : valid 0x01 = false := valid_eq_false_of_repeat (e := 8) (f := 0) (by decide) (buildExponentTable_eight 1)
  have htwo : valid 0x02 = false := valid_eq_false_of_repeat (e := 8) (f := 1) (by decide) (buildExponentTable_eight 2)
  obtain ⟨L, _, hexec⟩ := exec_build_of_valid htv valid_standard
  exact ⟨⟨L, hexec⟩, raises_badPoly htv hone, raises_badPoly htv htwo, buildExponentTable_eight 1,
    buildExponentTable_eight 2⟩

/-! ### The mirrored exponent table (R71) -/

/-- The mirrored table holds at index `k` the entry at `k` modulo 255 (R71). -/
theorem mirroredTable_getElem? (T : ExpTable) {k : Nat} (hk : k ≤ 508) :
    (mirroredTable T)[k]? = some T[(exponent k).val] := by
  by_cases hlt : k < 255
  · rw [mirroredTable, List.getElem?_append_left (by simpa using hlt)]
    simp [exponent, Nat.mod_eq_of_lt hlt, hlt]
  · have hmod : k % 255 = k - 255 := by omega
    rw [mirroredTable, List.getElem?_append_right (by simpa using hlt), List.getElem?_take_of_lt (by simp; omega)]
    have hlt' : k - 255 < 255 := by omega
    simp [exponent, hmod, hlt']

/-- Settles O42: MUL reads the exponent table at the sum of the logarithms modulo 255. -/
theorem mirroredTableGivesTheSameBytes : Obligations.MirroredTableGivesTheSameBytes := by
  refine ⟨fun T k hk => mirroredTable_getElem? T hk, fun s a b ⟨hs, htv⟩ ha hb => ?_⟩
  have h := hs.builtFrom htv
  obtain ⟨i, hi, _⟩ := h.exists_logEntry_eq ha
  obtain ⟨j, hj, _⟩ := h.exists_logEntry_eq hb
  exact ⟨i, j, _, hi, hj, mirroredTable_getElem? _ (by omega), gfMul_of_logEntry ha hb hi hj⟩

end Sys2Proof.Machine

/-! # The Field Engine (41_field_engine.md)

Under built tables every nonzero byte is a power of the generator, so that MUL, DIV and POW are arithmetic of exponents
modulo 255. MUL is then the product of polynomials modulo the reduction polynomial, from which the laws of the field
follow, and DIV is its inverse. -/

namespace Sys2Proof.Machine

variable {p a b c q v : Byte} {n : Half} {tb : Tables} {s : State} {i j : Fin 255}

/-! ### What the commands answer and raise -/

/-- ADD answers the XOR of its operands in every state (R86). -/
theorem answers_add (a b : Byte) (s : State) : Answers (.add a b) s ((a ^^^ b).setWidth 16) := rfl

/-- SUB answers what ADD answers (R87). -/
theorem answers_sub (a b : Byte) (s : State) : Answers (.sub a b) s ((a ^^^ b).setWidth 16) := rfl

/-- Behind the test of `TV` a byte that a field operation gives is the answer of its command (R85). -/
theorem answers_of_value {c : Instr} {r : EngineResult} (hexec : exec c s = needTables s (answer r s))
    (htv : s.tv = true) (hr : r = .value v) : Answers c s (v.setWidth 16) := by
  rw [Answers, hexec, needTables_valid htv, hr]
  rfl

/-- MUL answers `gf_mul` (R88). -/
theorem answers_mul : s.tv = true → gfMul s.tables a b = .value v → Answers (.mul a b) s (v.setWidth 16) :=
  answers_of_value rfl

/-- DIV answers `gf_div` (R89). -/
theorem answers_div : s.tv = true → gfDiv s.tables a b = .value v → Answers (.div a b) s (v.setWidth 16) :=
  answers_of_value rfl

/-- POW answers `gf_pow` (R90). -/
theorem answers_pow : s.tv = true → gfPow s.tables a n = .value v → Answers (.pow a n) s (v.setWidth 16) :=
  answers_of_value rfl

/-- INV answers `gf_inv` (R91). -/
theorem answers_inv : s.tv = true → gfInv s.tables a = .value v → Answers (.inv a) s (v.setWidth 16) :=
  answers_of_value rfl

/-- A command that raises an error answers nothing: its beat is another (R54). -/
theorem not_answers_of_errorOf {c : Instr} {e : Err} {d : Half} (h : errorOf c s = some e) : ¬ Answers c s d := by
  intro hans
  have hnext := hans.symm.trans (exec_of_errorOf h)
  have hbeats := congrArg State.responses (Host.Outcome.next.inj hnext)
  simp at hbeats

/-- A command whose first condition is that of `E_NOTABLE` raises it while `TV` = 0 (R85, R119). -/
theorem raises_noTable {c : Instr} {o : Option Err} (hc : errorOf c s = if s.tv = true then o else some .noTable)
    (htv : s.tv = false) : Raises c s .noTable :=
  raises_of_errorOf (hc.trans (if_neg (by simp [htv])))

/-- A nonzero dividend over zero is the condition of `E_DIV0` (R89). -/
theorem errorOf_div (htv : s.tv = true) (hab : a ≠ 0 ∧ b = 0) : errorOf (.div a b) s = some .div0 := by
  simp only [errorOf, htv, if_true, if_pos hab]

/-- Settles O29: the answer is XOR, whose laws are those of `BitVec`. -/
theorem addAndSubAnswerTheXor : Obligations.AddAndSubAnswerTheXor := fun a b s =>
  ⟨answers_add a b s, answers_sub a b s, rfl, rfl, BitVec.xor_zero, BitVec.xor_self, BitVec.zero_xor,
    BitVec.xor_comm a b⟩

/-- Settles O35: for each table command the condition of `E_NOTABLE` comes first. -/
theorem tableCommandsNeedTheTables : Obligations.TableCommandsNeedTheTables := fun s a b _ _ htv =>
  ⟨raises_noTable rfl htv, raises_noTable rfl htv, raises_noTable rfl htv, raises_noTable rfl htv,
    raises_noTable rfl htv, raises_noTable rfl htv, answers_add a b s, answers_sub a b s⟩

/-! ### Exponents modulo 255 (R92) -/

/-- In a state in which table commands run the tables are built from `POLY` (R15). -/
theorem Ready.builtFrom (hs : Ready s) : BuiltFrom s.poly s.tables := hs.1.builtFrom hs.2

/-- A number stands for the exponent that it is congruent to. -/
theorem exponent_eq {k : Nat} (h : k % 255 = i.val) : exponent k = i := Fin.ext h

/-- An exponent stands for itself. -/
@[simp] theorem exponent_val (i : Fin 255) : exponent i.val = i := exponent_eq (Nat.mod_eq_of_lt i.isLt)

/-- Settles O34: the logarithms are exponents; each of the sum and the difference leaves 0..254 by less than 255. -/
theorem exponentArithmeticStaysInRange : Obligations.ExponentArithmeticStaysInRange := by
  intro s a b n hs ha hb
  obtain ⟨i, hi, _⟩ := hs.builtFrom.exists_logEntry_eq ha
  obtain ⟨j, hj, _⟩ := hs.builtFrom.exists_logEntry_eq hb
  rw [logValue_of_logEntry hi, logValue_of_logEntry hj]
  have hproduct : i.val * n.toNat ≤ 254 * 65535 := Nat.mul_le_mul (by omega) (Nat.le_of_lt_succ n.isLt)
  refine ⟨i, j, rfl, rfl, by omega, by omega, by omega, hproduct, ?_, ?_, rfl,
    fun m => ⟨by omega, by omega, ?_⟩⟩
  · rw [reduceSum_of_lt i.isLt j.isLt]
    push_cast
    rfl
  · rw [reduceDiff_of_lt i.isLt j.isLt]
    omega
  · obtain ⟨e, he, _, hv⟩ | ⟨hout, _⟩ := expAt_cases s.tables (m % 255)
    · exact ⟨_, hv⟩
    · omega

/-! ### The operations on zero (R88 to R90) -/

/-- A product with a zero operand is zero (R88). -/
theorem gfMul_of_zero (tb : Tables) (h : a = 0 ∨ b = 0) : gfMul tb a b = .value 0 := if_pos h

/-- A product with zero is zero (R88). -/
theorem gfMul_zero (tb : Tables) (a : Byte) : gfMul tb a 0 = .value 0 := gfMul_of_zero tb (.inr rfl)

/-- Zero divided by any element, also by zero, is zero (R89). -/
theorem zero_gfDiv (tb : Tables) (b : Byte) : gfDiv tb 0 b = .value 0 := if_pos rfl

/-- The power 0 of any element, also of zero, is one (R90). -/
theorem gfPow_zero (tb : Tables) (a : Byte) : gfPow tb a 0 = .value 1 := if_pos rfl

/-- A nonzero power of zero is zero (R90). -/
theorem zero_gfPow (tb : Tables) (hn : n ≠ 0) : gfPow tb 0 n = .value 0 := by
  rw [gfPow, if_neg hn, if_pos rfl]

/-! ### The operations on powers of the generator -/

namespace BuiltFrom

variable (h : BuiltFrom p tb)
include h

/-- The product of two powers of the generator is the power at the sum of the exponents (R88). -/
theorem gfMul_expEntry (i j : Fin 255) :
    gfMul tb (expEntry tb i) (expEntry tb j) = .value (expEntry tb (exponent (i.val + j.val))) :=
  gfMul_of_logEntry (h.expEntry_ne_zero i) (h.expEntry_ne_zero j) (logEntry_expEntry h.log i)
    (logEntry_expEntry h.log j)

/-- The quotient of two powers of the generator is the power at the difference of the exponents (R89). -/
theorem gfDiv_expEntry (i j : Fin 255) :
    gfDiv tb (expEntry tb i) (expEntry tb j) = .value (expEntry tb (exponent (i.val + 255 - j.val))) :=
  gfDiv_of_logEntry (h.expEntry_ne_zero i) (h.expEntry_ne_zero j) (logEntry_expEntry h.log i)
    (logEntry_expEntry h.log j)

/-- A power of a power of the generator is the power at the product of the two, the power 0 included (R90). -/
theorem gfPow_expEntry (i : Fin 255) (n : Half) :
    gfPow tb (expEntry tb i) n = .value (expEntry tb (exponent (i.val * n.toNat))) := by
  by_cases hn : n = 0
  · subst hn
    rw [gfPow_zero]
    exact congrArg _ h.expEntry_zero.symm
  · exact gfPow_of_logEntry hn (h.expEntry_ne_zero i) (logEntry_expEntry h.log i)

/-- The exponent table of `p` gives the product of two of its entries. -/
theorem gfMul_of_entries (i j : Fin 255)
    (habc : (buildExponentTable p)[i.val] = a ∧ (buildExponentTable p)[j.val] = b ∧
      (buildExponentTable p)[(exponent (i.val + j.val)).val] = c) : gfMul tb a b = .value c := by
  obtain ⟨rfl, rfl, rfl⟩ := habc
  simp only [← h.expEntry_eq]
  exact h.gfMul_expEntry i j

/-- The exponent table of `p` gives the powers of its entries. -/
theorem gfPow_of_entries (i : Fin 255) (n : Half)
    (hab : (buildExponentTable p)[i.val] = a ∧ (buildExponentTable p)[(exponent (i.val * n.toNat)).val] = b) :
    gfPow tb a n = .value b := by
  obtain ⟨rfl, rfl⟩ := hab
  simp only [← h.expEntry_eq]
  exact h.gfPow_expEntry i n

/-- The generator times its power 254 is one (R91). -/
theorem gfMul_two_expEntry_last : gfMul tb 0x02 (expEntry tb 254) = .value 1 := by
  have hprod := h.gfMul_expEntry 1 254
  rwa [h.expEntry_one, show exponent ((1 : Fin 255).val + (254 : Fin 255).val) = 0 from rfl, h.expEntry_zero] at hprod

/-! ### MUL is the product of polynomials (R97) -/

/-- The power of `x` at any exponent is the entry at the exponent modulo 255: the order of `x` is 255 (R2, R26). -/
theorem reductionPoly_dvd_X_pow (k : Nat) :
    reductionPoly p ∣ Polynomial.X ^ k - toPoly (expEntry tb (exponent k)) := by
  have hperiod : Function.IsPeriodicPt (double · p) 255 1#8 := iterate_double_of_valid h.valid
  rw [h.expEntry_eq, buildExponentTable_getElem, exponent, hperiod.iterate_mod_apply]
  exact reductionPoly_dvd_iterate p k

/-- The product is a byte congruent to the product of the polynomials (R97). -/
theorem exists_gfMul_dvd (a b : Byte) :
    ∃ v, gfMul tb a b = .value v ∧ reductionPoly p ∣ toPoly a * toPoly b - toPoly v := by
  by_cases hzero : a = 0 ∨ b = 0
  · refine ⟨0, gfMul_of_zero tb hzero, ?_⟩
    obtain rfl | rfl := hzero <;> simp
  obtain ⟨ha, hb⟩ := not_or.1 hzero
  obtain ⟨i, rfl⟩ := h.exists_expEntry_eq ha
  obtain ⟨j, rfl⟩ := h.exists_expEntry_eq hb
  refine ⟨_, h.gfMul_expEntry i j, ?_⟩
  have hi := (h.reductionPoly_dvd_expEntry i).mul_right (Polynomial.X ^ j.val)
  have hj := (h.reductionPoly_dvd_expEntry j).mul_left (toPoly (expEntry tb i))
  convert dvd_sub (dvd_sub (h.reductionPoly_dvd_X_pow (i.val + j.val)) hi) hj using 1
  ring

/-- The product is the one byte congruent to the product of the polynomials (R97). -/
theorem gfMul_eq_value_iff : gfMul tb a b = .value v ↔ reductionPoly p ∣ toPoly a * toPoly b - toPoly v := by
  obtain ⟨w, hw, hdvd⟩ := h.exists_gfMul_dvd a b
  rw [hw, EngineResult.value.injEq]
  refine ⟨fun hwv => hwv ▸ hdvd, fun hv => eq_of_reductionPoly_dvd_sub (p := p) ?_⟩
  simpa using dvd_sub hv hdvd

/-- One is the identity of multiplication (R94). -/
theorem gfMul_one (a : Byte) : gfMul tb a 0x01 = .value a :=
  h.gfMul_eq_value_iff.2 (by simp)

/-- Multiplication is commutative (R95). -/
theorem gfMul_comm (a b : Byte) : gfMul tb a b = gfMul tb b a := by
  obtain ⟨v, hv, hdvd⟩ := h.exists_gfMul_dvd a b
  rw [hv, eq_comm, h.gfMul_eq_value_iff, mul_comm]
  exact hdvd

/-- One is the identity of multiplication on the left too (R94). -/
theorem one_gfMul (a : Byte) : gfMul tb 0x01 a = .value a := (h.gfMul_comm 0x01 a).trans (h.gfMul_one a)

/-- Multiplication is associative (R95). -/
theorem gfMul_assoc {ab bc r : Byte} (hab : gfMul tb a b = .value ab) (hbc : gfMul tb b c = .value bc)
    (hr : gfMul tb a bc = .value r) : gfMul tb ab c = .value r := by
  rw [h.gfMul_eq_value_iff] at hab hbc hr ⊢
  convert dvd_sub (dvd_add hr (hbc.mul_left (toPoly a))) (hab.mul_right (toPoly c)) using 1
  ring

/-! ### DIV is the inverse of MUL (R89, R94) -/

/-- The factor of a product by a nonzero element is the quotient (R89). -/
theorem gfDiv_of_gfMul (hb : b ≠ 0) (hmul : gfMul tb b q = .value a) : gfDiv tb a b = .value q := by
  obtain ⟨j, rfl⟩ := h.exists_expEntry_eq hb
  by_cases hq : q = 0
  · subst hq
    obtain rfl : 0 = a := EngineResult.value.inj ((gfMul_zero tb _).symm.trans hmul)
    exact zero_gfDiv tb _
  · obtain ⟨k, rfl⟩ := h.exists_expEntry_eq hq
    obtain rfl : expEntry tb (exponent (j.val + k.val)) = a := by simpa [h.gfMul_expEntry] using hmul
    rw [h.gfDiv_expEntry, exponent_eq (i := k)]
    simp only [exponent]
    omega

/-- A nonzero divisor times the quotient is the dividend (R94). -/
theorem gfMul_of_gfDiv (hb : b ≠ 0) (hdiv : gfDiv tb a b = .value q) : gfMul tb b q = .value a := by
  obtain ⟨j, rfl⟩ := h.exists_expEntry_eq hb
  by_cases ha : a = 0
  · subst ha
    obtain rfl : 0 = q := EngineResult.value.inj ((zero_gfDiv tb _).symm.trans hdiv)
    exact gfMul_zero tb _
  · obtain ⟨k, rfl⟩ := h.exists_expEntry_eq ha
    obtain rfl : expEntry tb (exponent (k.val + 255 - j.val)) = q := by simpa [h.gfDiv_expEntry] using hdiv
    rw [h.gfMul_expEntry, exponent_eq (i := k)]
    simp only [exponent]
    omega

/-- Every quotient is a byte but that of a nonzero dividend and zero (R93). -/
theorem exists_gfDiv_eq (hab : ¬ (a ≠ 0 ∧ b = 0)) : ∃ v, gfDiv tb a b = .value v := by
  cases hdiv : gfDiv tb a b with
  | value v => exact ⟨v, rfl⟩
  | divByZero => exact absurd ((gfDiv_eq_divByZero tb a b).1 hdiv) hab
  | noEntry => exact absurd hdiv (h.gfDiv_ne_noEntry a b)

/-! ### Powers (R90) -/

/-- The first power of an element is the element (R90). -/
theorem gfPow_one (a : Byte) : gfPow tb a 1 = .value a := by
  by_cases ha : a = 0
  · subst ha
    exact zero_gfPow tb (by decide)
  · obtain ⟨i, rfl⟩ := h.exists_expEntry_eq ha
    simp [h.gfPow_expEntry]

/-- Every power of one is one (R90). -/
theorem one_gfPow (n : Half) : gfPow tb 0x01 n = .value 1 := by
  have hpow := h.gfPow_expEntry 0 n
  rwa [h.expEntry_zero, exponent_eq (i := 0) (by simp), h.expEntry_zero] at hpow

/-- A power of a nonzero element depends on the power modulo 255 alone: the order of an element divides 255 (R90). -/
theorem gfPow_congr {m : Half} (ha : a ≠ 0) (hmn : m.toNat % 255 = n.toNat % 255) : gfPow tb a m = gfPow tb a n := by
  obtain ⟨i, rfl⟩ := h.exists_expEntry_eq ha
  rw [h.gfPow_expEntry, h.gfPow_expEntry, exponent_eq (i := exponent (i.val * n.toNat))]
  exact Nat.ModEq.mul_left i.val hmn

/-- A nonzero element to a multiple of 255 is one (R90). -/
theorem gfPow_of_mod_eq_zero (ha : a ≠ 0) (hn : n.toNat % 255 = 0) : gfPow tb a n = .value 1 :=
  (h.gfPow_congr ha (n := 0) hn).trans (gfPow_zero tb a)

/-- The next power is the product with one more factor, also of zero (R88, R90). -/
theorem exists_gfPow_succ (a : Byte) {m n : Half} (hn : n.toNat = m.toNat + 1) :
    ∃ v r, gfPow tb a m = .value v ∧ gfPow tb a n = .value r ∧ gfMul tb a v = .value r := by
  by_cases ha : a = 0
  · subst ha
    obtain ⟨v, hv⟩ := h.exists_gfPow_eq 0 m
    have hn0 : n ≠ 0 := by rintro rfl; simp at hn
    exact ⟨v, 0, hv, zero_gfPow tb hn0, gfMul_of_zero tb (.inl rfl)⟩
  · obtain ⟨i, rfl⟩ := h.exists_expEntry_eq ha
    refine ⟨_, _, h.gfPow_expEntry i m, h.gfPow_expEntry i n, ?_⟩
    rw [h.gfMul_expEntry, exponent_eq (i := exponent (i.val * n.toNat))]
    simp only [exponent, hn, Nat.mul_succ]
    omega

end BuiltFrom

/-! ### The commands (R88 to R91, R93) -/

/-- Settles O30: the product of powers of the generator. -/
theorem mulAnswersTheProduct : Obligations.MulAnswersTheProduct := by
  refine fun a b s => ⟨rfl, raises_noTable rfl, fun htv hzero => answers_mul htv (gfMul_of_zero _ hzero),
    fun hs ha hb => ?_, fun hs => answers_mul hs.2 (hs.builtFrom.gfMul_one a), fun hs hp => ?_⟩
  · have h := hs.builtFrom
    obtain ⟨i, hi, _⟩ := h.exists_logEntry_eq ha
    obtain ⟨j, hj, _⟩ := h.exists_logEntry_eq hb
    exact ⟨i, j, hi, hj, answers_mul hs.2 (gfMul_of_logEntry ha hb hi hj), h.expEntry_ne_zero _⟩
  · have h : BuiltFrom 0x1D s.tables := hp ▸ hs.builtFrom
    exact ⟨answers_mul hs.2 (h.gfMul_of_entries 25 198 (c := 0x09) (by decide +kernel)),
      answers_mul hs.2 (h.gfMul_of_entries 1 254 (c := 0x01) (by decide +kernel)),
      answers_mul hs.2 (h.gfMul_of_entries 254 254 (c := 0x47) (by decide +kernel))⟩

/-- Settles O31: the quotient of powers of the generator; the corner cases and examples are products read backwards. -/
theorem divAnswersTheQuotientOrRaises : Obligations.DivAnswersTheQuotientOrRaises := by
  intro a b s
  have hquotient {x y q : Byte} (hs : Ready s) (hy : y ≠ 0) (hmul : gfMul s.tables y q = .value x) :
      Answers (.div x y) s (q.setWidth 16) :=
    answers_div hs.2 (hs.builtFrom.gfDiv_of_gfMul hy hmul)
  refine ⟨rfl, raises_noTable rfl, ?_, fun htv ha hb => raises_of_errorOf (errorOf_div htv ⟨ha, hb⟩),
    fun hs ha hb => ?_, fun hs => ?_, fun hs ha => hquotient hs ha (hs.builtFrom.gfMul_one a), fun hs => ?_,
    fun hs hp => ?_⟩
  · rintro htv rfl
    exact answers_div htv (zero_gfDiv s.tables b)
  · obtain ⟨i, hi, _⟩ := hs.builtFrom.exists_logEntry_eq ha
    obtain ⟨j, hj, _⟩ := hs.builtFrom.exists_logEntry_eq hb
    exact ⟨i, j, hi, hj, answers_div hs.2 (gfDiv_of_logEntry ha hb hi hj)⟩
  · exact hquotient hs (by decide) (hs.builtFrom.one_gfMul a)
  · exact hquotient hs (hs.builtFrom.expEntry_ne_zero 254)
      ((hs.builtFrom.gfMul_comm _ _).trans hs.builtFrom.gfMul_two_expEntry_last)
  · have h : BuiltFrom 0x1D s.tables := hp ▸ hs.builtFrom
    exact ⟨hquotient (q := 0x07) hs (by decide) (h.gfMul_of_entries 25 198 (by decide +kernel)),
      hquotient (q := 0xD3) hs (by decide) (h.gfMul_of_entries 198 82 (by decide +kernel)),
      hquotient (q := 0x02) hs (by decide) (h.gfMul_of_entries 254 1 (by decide +kernel))⟩

/-- Settles O32: the inverse is the quotient of 0x01, and so the other factor of the product 0x01. -/
theorem invAnswersTheInverseOrRaises : Obligations.InvAnswersTheInverseOrRaises := by
  intro a s
  have hinverse {x q : Byte} (hs : Ready s) (hx : x ≠ 0) (hmul : gfMul s.tables x q = .value 0x01) :
      Answers (.inv x) s (q.setWidth 16) :=
    answers_inv hs.2 (hs.builtFrom.gfDiv_of_gfMul hx hmul)
  refine ⟨rfl, rfl, raises_noTable rfl, fun htv ha => raises_of_errorOf (by simp [errorOf, htv, ha]),
    fun hs ha => ?_, fun hs => hinverse hs (by decide) (hs.builtFrom.gfMul_one 0x01),
    fun hs => hinverse hs (by decide) hs.builtFrom.gfMul_two_expEntry_last, fun hs hp => ?_⟩
  · have h := hs.builtFrom
    obtain ⟨i, hi, rfl⟩ := h.exists_logEntry_eq ha
    have hmul : gfMul s.tables (expEntry s.tables i) (expEntry s.tables (exponent (255 - i.val))) = .value 0x01 := by
      rw [h.gfMul_expEntry, exponent_eq (i := 0), h.expEntry_zero]
      simp only [exponent]
      omega
    exact ⟨i, hi, hinverse hs ha hmul, hmul⟩
  · have h : BuiltFrom 0x1D s.tables := hp ▸ hs.builtFrom
    exact ⟨hinverse (q := 0x8C) hs (by decide) (h.gfMul_of_entries 206 49 (by decide +kernel)),
      hinverse (q := 0x8E) hs (by decide) (h.gfMul_of_entries 1 254 (by decide +kernel))⟩

/-- Settles O33: the power of a power of the generator; two powers that differ by 255 are equal. -/
theorem powAnswersThePower : Obligations.PowAnswersThePower := by
  refine fun a n s => ⟨rfl, raises_noTable rfl, ?_, ?_, fun hs hn ha => ?_,
    fun hs => ⟨answers_pow hs.2 (hs.builtFrom.gfPow_one a), answers_pow hs.2 (hs.builtFrom.one_gfPow n)⟩,
    fun hs ha => ⟨answers_pow hs.2 (hs.builtFrom.gfPow_of_mod_eq_zero ha rfl),
      answers_pow hs.2 (hs.builtFrom.gfPow_of_mod_eq_zero ha rfl)⟩, fun hs hne hlt => ?_, fun hs hp => ?_⟩
  · rintro htv rfl
    exact answers_pow htv (gfPow_zero s.tables a)
  · rintro htv hn rfl
    exact answers_pow htv (zero_gfPow s.tables hn)
  · obtain ⟨i, hi, _⟩ := hs.builtFrom.exists_logEntry_eq ha
    exact ⟨i, hi, answers_pow hs.2 (gfPow_of_logEntry hn ha hi)⟩
  · have hadd : (n + 255).toNat = n.toNat + 255 := Nat.mod_eq_of_lt hlt
    by_cases ha : a = 0
    · subst ha
      have hn : n ≠ 0 := hne.resolve_left (by simp)
      have hn' : n + 255 ≠ 0 := by
        intro h0
        rw [h0] at hadd
        simp at hadd
      rw [zero_gfPow _ hn, zero_gfPow _ hn']
    · exact hs.builtFrom.gfPow_congr ha (by omega)
  · have h : BuiltFrom 0x1D s.tables := hp ▸ hs.builtFrom
    exact ⟨answers_pow hs.2 (h.gfPow_of_entries 1 8 (b := 0x1D) (by decide +kernel)),
      answers_pow hs.2 (h.gfPow_of_entries 175 2 (b := 0xE2) (by decide +kernel))⟩

/-- Settles O36: the operations give bytes, and DIV raises `E_DIV0` in the case excepted. -/
theorem fieldOperationsAreClosedAndTotal : Obligations.FieldOperationsAreClosedAndTotal := by
  intro s a b n hs
  have h := hs.builtFrom
  refine ⟨⟨_, answers_add a b s⟩, ⟨_, answers_sub a b s⟩, (h.exists_gfMul_eq a b).imp fun _ => answers_mul hs.2,
    (h.exists_gfPow_eq a n).imp fun _ => answers_pow hs.2, fun ⟨_, hans⟩ hab => ?_,
    fun hab => (h.exists_gfDiv_eq hab).imp fun _ => answers_div hs.2⟩
  exact not_answers_of_errorOf (errorOf_div hs.2 hab) hans

/-! ### The laws of the field (R94 to R97) -/

/-- Settles O37: the quotient exists, and times the divisor it is the dividend; the inverse is the quotient of 0x01. -/
theorem identitiesAndInverses : Obligations.IdentitiesAndInverses := by
  intro s a b hs
  have h := hs.builtFrom
  have hquotient (x : Byte) (ha : a ≠ 0) : ∃ q, gfDiv s.tables x a = .value q ∧ gfMul s.tables a q = .value x := by
    obtain ⟨q, hq⟩ := h.exists_gfDiv_eq (a := x) fun hxa => ha hxa.2
    exact ⟨q, hq, h.gfMul_of_gfDiv ha hq⟩
  exact ⟨BitVec.xor_zero, h.gfMul_one a, by simp [gfAdd, gfSub], hquotient 0x01, hquotient b⟩

/-- Settles O38: XOR is associative and commutative, and so is the product of polynomials. -/
theorem additionAndMultiplicationAssociate : Obligations.AdditionAndMultiplicationAssociate := by
  intro s a b c hs
  have h := hs.builtFrom
  obtain ⟨ab, hab⟩ := h.exists_gfMul_eq a b
  obtain ⟨bc, hbc⟩ := h.exists_gfMul_eq b c
  obtain ⟨r, hr⟩ := h.exists_gfMul_eq a bc
  exact ⟨(BitVec.xor_assoc a b c).symm, BitVec.xor_comm a b, h.gfMul_comm a b, ab, bc, r, hab, hbc, hr,
    h.gfMul_assoc hab hbc hr⟩

/-- Settles O39: 0x80 is the power 7 of `x`, 0x02 the power 1, and `POLY` the power 8. -/
theorem mulIsThePolynomialProduct : Obligations.MulIsThePolynomialProduct := by
  intro s hs
  have h := hs.builtFrom
  exact ⟨h.exists_gfMul_dvd, h.reductionPoly_dvd_expEntry, h.gfMul_of_entries 7 1
    ⟨buildExponentTable_of_lt_eight _ (by decide), buildExponentTable_one _, buildExponentTable_eight _⟩⟩

/-- Settles O40: one more factor adds the exponent once more. -/
theorem powIsRepeatedMultiplication : Obligations.PowIsRepeatedMultiplication := by
  refine fun s a hs => ⟨gfPow_zero s.tables a, fun n hn => hs.builtFrom.exists_gfPow_succ a ?_⟩
  rw [BitVec.toNat_ofNat, BitVec.toNat_ofNat]
  omega

/-- Settles O41: the table is `gf_mul`, which is commutative. -/
theorem multiplicationTableIsDerived : Obligations.MultiplicationTableIsDerived := by
  intro s i j hs
  have h := hs.builtFrom
  exact ⟨rfl, gfMul_of_zero _ (.inl rfl), gfMul_zero _ i, h.one_gfMul j, h.gfMul_one i,
    h.gfMul_comm i j⟩

end Sys2Proof.Machine

/-! # Table read-out (42_table_access.md)

RDEXP and RDLOG show single entries of the two tables, so what they answer under the invariant is what `BuiltFrom` says
of those entries. -/

namespace Sys2Proof.Machine

variable {p a e v : Byte} {d : Half} {tb : Tables} {s : State} {i : Fin 255}

/-! ### RDEXP (R105) -/

/-- RDEXP answers the entry that its operand names (R105). -/
theorem answers_rdexp (htv : s.tv = true) (he : e.toNat = i.val) (hv : expEntry s.tables i = v) :
    Answers (.rdexp e) s (v.setWidth 16) := by
  subst hv
  have hlt : e.toNat < 255 := he ▸ i.isLt
  obtain rfl : i = ⟨e.toNat, hlt⟩ := Fin.ext he.symm
  rw [Answers, exec, execRdexp, needTables_valid htv, dif_pos hlt]
  rfl

/-- `EXP[8]` is the polynomial (R66). -/
theorem BuiltFrom.expEntry_eight (h : BuiltFrom p tb) : expEntry tb 8 = p :=
  (h.expEntry_eq 8).trans (buildExponentTable_eight p)

/-- Settles O43: below 255 the answer is the entry, and 255 is the condition of `E_INDEX`. -/
theorem rdexpReadsTheExponentTable : Obligations.RdexpReadsTheExponentTable := by
  refine fun e s => ⟨rfl, raises_noTable rfl, fun htv he => raises_of_errorOf (by simp [errorOf, htv, he]),
    fun htv he => answers_rdexp (i := ⟨e.toNat, he⟩) htv rfl rfl, fun hs => ?_, fun hs hp => ?_⟩
  · have h := hs.builtFrom
    exact ⟨answers_rdexp hs.2 rfl h.expEntry_zero, answers_rdexp hs.2 rfl h.expEntry_one,
      answers_rdexp hs.2 rfl h.expEntry_eight⟩
  · have h : BuiltFrom 0x1D s.tables := hp ▸ hs.builtFrom
    exact answers_rdexp (v := 0x8E) hs.2 rfl ((h.expEntry_eq 254).trans (by decide +kernel))

/-! ### RDLOG (R106) -/

/-- RDLOG answers the 16 bits stored, and no others (R106). -/
theorem answers_rdlog_iff (htv : s.tv = true) : Answers (.rdlog a) s d ↔ logEntry s.tables a = d := by
  rw [Answers, exec, execRdlog, needTables_valid htv]
  simp [respond, emit]

/-- Only zero has the sentinel in its slot: every other byte is an entry of the exponent table (R14). -/
theorem BuiltFrom.logEntry_eq_sentinel_iff (h : BuiltFrom p tb) : logEntry tb a = sentinel ↔ a = 0 := by
  refine ⟨fun ha => ?_, fun ha => ha ▸ h.logEntry_zero⟩
  by_contra hne
  obtain ⟨i, hi⟩ := h.exists_expEntry_eq hne
  exact (Machine.logEntry_eq_sentinel_iff h.log).1 ha i hi

/-- The exponent table of `p` gives the logarithm of each of its entries. -/
theorem BuiltFrom.logEntry_of_entry (h : BuiltFrom p tb) (i : Fin 255) (ha : (buildExponentTable p)[i.val] = a) :
    logEntry tb a = exponentBits i := by
  rw [← ha, ← h.expEntry_eq]
  exact logEntry_expEntry h.log i

/-- The low byte of the 16 bits of an exponent is the exponent (R13). -/
theorem toNat_lowByte_exponentBits (i : Fin 255) : ((exponentBits i).setWidth 8).toNat = i.val := by
  simp only [exponentBits, BitVec.toNat_setWidth, BitVec.toNat_ofNat]
  omega

/-- Settles O44: the answer is the logarithm, at whose exponent the exponent table holds the operand. -/
theorem rdlogReadsTheLogarithmTable : Obligations.RdlogReadsTheLogarithmTable := by
  refine fun a s => ⟨rfl, raises_noTable rfl, fun htv => (answers_rdlog_iff htv).2 rfl,
    fun hs => (answers_rdlog_iff hs.2).trans hs.builtFrom.logEntry_eq_sentinel_iff,
    fun hs => ⟨(answers_rdlog_iff hs.2).2 hs.builtFrom.logEntry_one,
      (answers_rdlog_iff hs.2).2 hs.builtFrom.logEntry_two⟩,
    fun hs ha => ?_, fun hs hp => ?_⟩
  · obtain ⟨i, hi, hv⟩ := hs.builtFrom.exists_logEntry_eq ha
    change Answers (.rdexp ((logEntry s.tables a).setWidth 8)) s (a.setWidth 16)
    rw [hi]
    exact answers_rdexp hs.2 (toNat_lowByte_exponentBits i) hv
  · have h : BuiltFrom 0x1D s.tables := hp ▸ hs.builtFrom
    exact ⟨(answers_rdlog_iff hs.2).2 (h.logEntry_of_entry 25 (by decide +kernel)),
      (answers_rdlog_iff hs.2).2 (h.logEntry_of_entry 254 (by decide +kernel))⟩

end Sys2Proof.Machine

/-! # Errors and the idle block (60_exceptions.md)

An error beat comes from `raise` and from nothing else, which transfers that beat alone and sets `SE`; so a command that
transfers one has met the condition of R117 that names it. -/

namespace Sys2Proof.Machine

variable {s t : State}

/-! ### The idle block (R129) -/

/-- Settles O9: with nothing to take the step is idle. -/
theorem idleBlockStaysAsItIs : Obligations.IdleBlockStaysAsItIs := fun _ => step_idle

/-! ### Where an error beat comes from (R118) -/

/-- SCAN's list holds no error beat (R75). -/
theorem err_notMem_scanBeats (ps : List Byte) (e : Err) (d : Half) : ⟨.err e, d⟩ ∉ scanBeats ps := by
  simp [scanBeats]

/-- A command raises the error of its condition, or transfers no error beat. -/
theorem exec_raises_or_no_errorBeat {i : Instr} (h : exec i s = .next t) :
    (∃ e, errorOf i s = some e ∧ t = raise e s) ∨
    ∃ bs, t.responses = s.responses ++ bs ∧ ∀ (e : Err) (d : Half), ⟨.err e, d⟩ ∉ bs := by
  obtain hraise | ⟨_, _, _, v, rfl⟩ | ⟨_, rfl⟩ | ⟨p, L, _, _, _, _, rfl⟩ := exec_cases h
  · exact .inl hraise
  · exact .inr ⟨[⟨.ok, v⟩], rfl, by simp⟩
  · exact .inr ⟨scanBeats validPolynomials, rfl, err_notMem_scanBeats _⟩
  · exact .inr ⟨[⟨.ok, 0⟩], rfl, by simp⟩

/-- A command that transfers an error beat has met the condition of that error and raised it: the beat is the only one. -/
theorem exec_of_errorBeat {i : Instr} {bs : List Beat} {e : Err} {d : Half} (h : exec i s = .next t)
    (hbs : t.responses = s.responses ++ bs) (hmem : ⟨.err e, d⟩ ∈ bs) :
    errorOf i s = some e ∧ t = raise e s ∧ bs = [⟨.err e, d⟩] := by
  obtain ⟨e', he, rfl⟩ | ⟨bs', hbs', hno⟩ := exec_raises_or_no_errorBeat h
  · obtain rfl : [⟨.err e', Config.errorData s.draws⟩] = bs := List.append_cancel_left hbs
    obtain ⟨rfl, rfl⟩ : e = e' ∧ d = Config.errorData s.draws := by simpa using hmem
    exact ⟨he, rfl, rfl⟩
  · obtain rfl : bs' = bs := List.append_cancel_left (hbs'.symm.trans hbs)
    exact absurd hmem (hno e d)

/-- Settles O46: the beat comes from `raise`, whose one beat it is. -/
theorem errorsChangeOnlyTheStickyFlag : Obligations.ErrorsChangeOnlyTheStickyFlag := by
  intro i s t bs e d h hbs hmem
  obtain ⟨_, rfl, rfl⟩ := exec_of_errorBeat h hbs hmem
  rw [← hbs]
  exact ⟨rfl, rfl, rfl⟩

/-! ### Which errors are raised (R117, R119) -/

/-- A command raises an error exactly when its condition is the first that holds (R117, R119). -/
theorem raises_iff_errorOf {i : Instr} {e : Err} : Raises i s e ↔ errorOf i s = some e := by
  refine ⟨fun ⟨d, h⟩ => ?_, raises_of_errorOf⟩
  obtain ⟨he, _⟩ := exec_of_errorBeat (e := e) (d := d) h rfl (by simp)
  exact he

/-- A word that decodes to no command raises `E_ILLEGAL` (R50). -/
theorem runWord_of_no_command {w : Word} (hw : ∀ i, decode w ≠ .ok i) (s : State) :
    runWord w s = .next (raise .illegal s) := by
  cases hd : decode w with
  | ok i => exact absurd hd (hw i)
  | error x => exact runWord_error hd s

/-- Settles O47: `errorOf` decides for the commands, the decoder for the other words. -/
theorem errorsAreRaisedExactlyWhenListed : Obligations.ErrorsAreRaisedExactlyWhenListed :=
  ⟨fun _ _ _ => raises_iff_errorOf, fun _ s hw => ⟨Config.errorData s.draws, runWord_of_no_command hw s⟩,
    rfl, rfl, rfl, rfl, rfl, rfl⟩

end Sys2Proof.Machine

/-! # Reset (70_reset_and_hazards.md)

A command word keeps what `STATUS` has recorded and the tables it says are valid, so only a reset discards them (R136). And a
command does not read the beats transferred before it, so what it does when it is abandoned is what it does alone (R137). -/

namespace Sys2Proof.Machine

variable {s t : State}

/-! ### What no command word discards (R136) -/

/-- `t` keeps what `s` has recorded: the tables, `POLY` and `TV` if `TV` = 1, and `SE` if `SE` = 1. -/
structure KeepsRecord (s t : State) : Prop where
  field : s.tv = true → SameField s t
  se : s.se = true → t.se = true

/-- A command word, legal or not, keeps what is recorded. -/
theorem runWord_keepsRecord {w : Word} (h : runWord w s = .next t) : KeepsRecord s t where
  field htv := by
    obtain hf | ⟨_, _, hc⟩ := runWord_field h
    · exact hf
    · exact absurd (htv.symm.trans hc.tv_before) (by decide)
  se hse := by
    obtain ⟨_, _, _, ht⟩ | ⟨_, _, ht⟩ := runWord_last h
    · exact ht
    · exact ht.trans hse

/-- A step keeps what is recorded, unless the host's action is a reset. -/
theorem step_keepsRecord_or_reset (h : step s = .next t) :
    KeepsRecord s t ∨ ∃ rest, s.inputs = .reset :: rest ∨ ∃ w taken, s.inputs = .resetDuring w taken :: rest := by
  obtain ⟨_, rfl⟩ | ⟨w, rest, _, hw⟩ | ⟨rest, hin, _⟩ | ⟨w, taken, rest, hin, _⟩ := step_cases h
  · exact .inl ⟨fun _ => ⟨rfl, rfl, rfl⟩, id⟩
  · obtain ⟨hfield, hse⟩ := runWord_keepsRecord hw
    exact .inl ⟨fun htv => { hfield htv with }, hse⟩
  · exact .inr ⟨rest, .inl hin⟩
  · exact .inr ⟨rest, .inr ⟨w, taken, hin⟩⟩

/-- Settles O11: a step that is no reset keeps what is recorded, and each of the three changes discards some of it. -/
theorem onlyResetClearsStatus : Obligations.OnlyResetClearsStatus := by
  intro s t h hchange
  obtain ⟨hfield, hse⟩ | hreset := step_keepsRecord_or_reset h
  · obtain ⟨htv, ht⟩ | ⟨hs, ht⟩ | ⟨htv, ht | ht⟩ := hchange
    · simp [(hfield htv).tv, htv] at ht
    · simp [hse hs] at ht
    · exact absurd (hfield htv).tables ht
    · exact absurd (hfield htv).poly ht
  · exact hreset

/-! ### What was transferred before a command (R137)

`prependBeats rs` is the history of a state in which the beats `rs` came before all others. No operation reads the beats, so
each gives the same outcome with the longer history. -/

/-- The state with the beats `rs` transferred before its own. -/
def prependBeats (rs : List Beat) (s : State) : State := { s with responses := rs ++ s.responses }

/-- The outcome with the beats `rs` transferred before those of its next state, if it has one. -/
def prependBeatsNext (rs : List Beat) :
    Host.Outcome State Fault Refusal → Host.Outcome State Fault Refusal
  | .next t => .next (prependBeats rs t)
  | .fault f => .fault f
  | .refused r => .refused r

variable (rs : List Beat)

/-- Beats are transferred behind all those before them. -/
theorem emit_prependBeats (bs : List Beat) (s : State) :
    emit bs (prependBeats rs s) = prependBeats rs (emit bs s) := by
  simp [emit, prependBeats]

/-- The answer goes behind all the beats before it. -/
theorem respond_prependBeats (v : Half) (s : State) :
    respond v (prependBeats rs s) = prependBeats rs (respond v s) := emit_prependBeats rs _ s

/-- The free value of an error beat does not depend on the beats before it. -/
theorem raise_prependBeats (e : Err) (s : State) :
    raise e (prependBeats rs s) = prependBeats rs (raise e s) :=
  congrArg (fun u => setSticky (advanceDraws u)) (emit_prependBeats rs _ s)

/-- The test of `TV` has the same result, so the outcomes are the same if what runs behind it gives the same. -/
theorem needTables_prependBeats {run run' : Host.Outcome State Fault Refusal} (s : State)
    (hrun : run' = prependBeatsNext rs run) :
    needTables (prependBeats rs s) run' = prependBeatsNext rs (needTables s run) := by
  cases htv : s.tv with
  | false =>
    rw [needTables_absent htv, needTables_absent (s := prependBeats rs s) htv, raise_prependBeats]
    rfl
  | true => rw [needTables_valid htv, needTables_valid (s := prependBeats rs s) htv, hrun]

/-- A field command with the same result ends the same. -/
theorem answer_prependBeats (r : EngineResult) (s : State) :
    answer r (prependBeats rs s) = prependBeatsNext rs (answer r s) := by
  cases r with
  | value v => exact congrArg _ (respond_prependBeats rs _ s)
  | divByZero => exact congrArg _ (raise_prependBeats rs .div0 s)
  | noEntry => rfl

/-- BUILD reads nothing of the state but `TV`. -/
theorem execBuild_prependBeats (p : Byte) (s : State) :
    execBuild p (prependBeats rs s) = prependBeatsNext rs (execBuild p s) := by
  have htv : (prependBeats rs s).tv = s.tv := rfl
  unfold execBuild
  rw [htv]
  split
  · exact congrArg _ (raise_prependBeats rs .built s)
  · split
    · exact congrArg _ (raise_prependBeats rs .badPoly s)
    · exact congrArg _ (respond_prependBeats rs 0 (commitTables ..))

/-- A command does the same whatever was transferred before it. -/
theorem exec_prependBeats (i : Instr) (s : State) :
    exec i (prependBeats rs s) = prependBeatsNext rs (exec i s) := by
  cases i with
  | build p => exact execBuild_prependBeats rs p s
  | scan => exact congrArg _ (emit_prependBeats rs _ s)
  | add a b | sub a b | rdsts => exact congrArg _ (respond_prependBeats rs _ s)
  | mul a b | div a b | pow a n | inv a => exact needTables_prependBeats rs s (answer_prependBeats rs _ s)
  | rdexp e =>
    refine needTables_prependBeats rs s ?_
    split
    · exact congrArg _ (respond_prependBeats rs _ s)
    · exact congrArg _ (raise_prependBeats rs .index s)
  | rdlog a => exact needTables_prependBeats rs s (congrArg _ (respond_prependBeats rs _ s))

/-- A command word does the same whatever was transferred before it. -/
theorem runWord_prependBeats (w : Word) (s : State) :
    runWord w (prependBeats rs s) = prependBeatsNext rs (runWord w s) := by
  cases hd : decode w with
  | ok i => rw [runWord_ok hd, runWord_ok hd, exec_prependBeats]
  | error x => rw [runWord_error hd, runWord_error hd, raise_prependBeats]; rfl

variable {rs}

/-- The longer history belongs to a next state only where there is one without it. -/
theorem prependBeatsNext_eq_next {o : Host.Outcome State Fault Refusal} (h : prependBeatsNext rs o = .next t) :
    ∃ u, o = .next u ∧ t = prependBeats rs u := by
  cases o with
  | next u => exact ⟨u, rfl, by simpa [prependBeatsNext] using h.symm⟩
  | fault f => cases h
  | refused r => cases h

/-- A word that goes on goes on with no beats before it, and its new beats and draws are the same. -/
theorem runWord_without_responses {w : Word} (h : runWord w s = .next t) :
    ∃ u, runWord w { s with responses := [] } = .next u ∧ t = prependBeats s.responses u := by
  have hs : s = prependBeats s.responses { s with responses := [] } := by simp [prependBeats]
  rw [hs, runWord_prependBeats] at h
  exact prependBeatsNext_eq_next h

/-- Settles O12: the abandoned command ran as it would have alone, and `resetBlock` keeps nothing of it but the beats taken,
the draws made and the host's coming actions. -/
theorem resetDuringACommandAbandonsIt : Obligations.ResetDuringACommandAbandonsIt := by
  intro s t w taken rest hin halone
  rw [step_command rfl] at halone
  obtain ⟨u, hu, rfl⟩ := runWord_without_responses halone
  have hinputs : u.inputs = rest := runWord_inputs hu
  have hnew : (prependBeats s.responses u).responses.drop s.responses.length = u.responses := List.drop_left
  refine ⟨State.reset.tables, ?_⟩
  rw [step_resetDuring hin, hnew]
  simp [abandonWord, hu, resetBlock, State.reset, prependBeats, hinputs]

end Sys2Proof.Machine
